-- ==== Sys2Proof/Word.lean ====
section
/-! DEFINITION. The two words of the machine: a framebuffer byte and a command word (00_scope.md R12). -/

namespace Sys2Proof

/-- A byte of the framebuffer, of the font, of a bus transfer, or a character code: 8 bits (R12). -/
abbrev Byte := BitVec 8

/-- A word of the command port: 64 bits (R12, R80). -/
abbrev Word := BitVec 64

end Sys2Proof
end

