-- ==== Sys2Proof/Syntax.lean ====
section
/-! DEFINITION. The commands of MFR-CMD version 1: one constructor for each row of spec/opcode_table.json, with the
operands 30_encoding.md R82 assembles. Every field of a command word is an unsigned 8-bit field or one bit. -/

namespace Sys2Proof

/-- A command. A string command holds its characters; their number is the word's LEN field (30_encoding.md R84). -/
inductive Instr
  /-- CLEAR (40_pixel.md R111). -/
  | clear
  /-- SET_PIXEL x, y, on (40_pixel.md R112). -/
  | setPixel (x y : Byte) (on : Bool)
  /-- GET_PIXEL x, y (40_pixel.md R114). -/
  | getPixel (x y : Byte)
  /-- DRAW_LINE x0, y0, x1, y1, on (41_line.md R131). -/
  | drawLine (x0 y0 x1 y1 : Byte) (on : Bool)
  /-- WRITE_CHAR x, y, ch (42_glyph.md R155). -/
  | writeChar (x y ch : Byte)
  /-- WRITE_BIG_CHAR x, y, ch (42_glyph.md R162). -/
  | writeBigChar (x y ch : Byte)
  /-- WRITE_STRING x, y, chars (42_glyph.md R170). -/
  | writeString (x y : Byte) (chars : List Byte)
  /-- WRITE_BIG_STRING x, y, chars (42_glyph.md R175). -/
  | writeBigString (x y : Byte) (chars : List Byte)
  /-- INIT (43_device.md R195). -/
  | init
  /-- INVERT v (43_device.md R198). -/
  | invert (v : Bool)
  /-- POWER_OFF (43_device.md R200). -/
  | powerOff
  /-- POWER_ON (43_device.md R201). -/
  | powerOn
  /-- FLUSH (43_device.md R202). -/
  | flush
deriving DecidableEq, Repr

end Sys2Proof
end

