-- ==== Sys2Proof/WellFormed.lean ====
section
/-! DEFINITION. Which commands an encoding exists for. A coordinate, a character code and the `on` bit fit their
fields by their types; the length of a string must fit the 8-bit LEN field (30_encoding.md R81, R89). -/

namespace Sys2Proof

/-- The command can be written in words: a string has at most 255 characters (30_encoding.md R81, R89). An
in-field coordinate that is out of range for the display is well formed; the machine faults or clips it (R82). -/
def Instr.wellFormed : Instr → Bool
  | .clear => true
  | .setPixel _ _ _ => true
  | .getPixel _ _ => true
  | .drawLine _ _ _ _ _ => true
  | .writeChar _ _ _ => true
  | .writeBigChar _ _ _ => true
  | .writeString _ _ chars => decide (chars.length ≤ 255)
  | .writeBigString _ _ chars => decide (chars.length ≤ 255)
  | .init => true
  | .invert _ => true
  | .powerOff => true
  | .powerOn => true
  | .flush => true

end Sys2Proof
end

