-- ==== Sys2Proof/Decode.lean ====
section
/-! DEFINITION. Decoding a command stream, total on any words and rejecting by name (30_encoding.md R80 to R88), and
after it the encoder, written from the same tables. -/

namespace Sys2Proof

/-- The thirteen legal opcodes (30_encoding.md R85). -/
inductive Op
  | clear
  | setPixel
  | getPixel
  | drawLine
  | writeChar
  | writeBigChar
  | writeString
  | writeBigString
  | init
  | invert
  | powerOff
  | powerOn
  | flush
deriving DecidableEq, Repr

/-- The two illegal verdicts of decoding (30_encoding.md R86). -/
inductive Illegal
  /-- The OP field is reserved (60_exceptions.md R234). -/
  | opcode
  /-- A must-be-zero bit of a legal opcode is set (60_exceptions.md R235). -/
  | reservedField
deriving DecidableEq, Repr

/-- What the words at the command-stream position are. -/
inductive Decoded
  /-- A command, and the words after it. -/
  | instr (i : Instr) (rest : List Word)
  /-- An illegal first word `w0`, and why. -/
  | illegal (why : Illegal) (w0 : Word)
  /-- No word is present (60_exceptions.md R248). -/
  | noCommand
  /-- A string command whose payload words are not all present (60_exceptions.md R248). -/
  | noPayload
deriving DecidableEq, Repr

/-! ## Fields (30_encoding.md R81) -/

/-- Bits 63:56, OP. -/
def fieldOP (w : Word) : Byte := w.extractLsb' 56 8
/-- Bits 55:48, LEN. -/
def fieldLEN (w : Word) : Byte := w.extractLsb' 48 8
/-- Bits 47:40, CH. -/
def fieldCH (w : Word) : Byte := w.extractLsb' 40 8
/-- Bit 32, V. -/
def fieldV (w : Word) : Bool := w.getLsbD 32
/-- Bits 31:24, YB. -/
def fieldYB (w : Word) : Byte := w.extractLsb' 24 8
/-- Bits 23:16, XB. -/
def fieldXB (w : Word) : Byte := w.extractLsb' 16 8
/-- Bits 15:8, YA. -/
def fieldYA (w : Word) : Byte := w.extractLsb' 8 8
/-- Bits 7:0, XA. -/
def fieldXA (w : Word) : Byte := w.extractLsb' 0 8

/-! ## Opcode map and must-be-zero masks (30_encoding.md R83, R85) -/

/-- The opcode's number (R85). -/
def Op.code : Op → Byte
  | .clear => 0x01
  | .setPixel => 0x02
  | .getPixel => 0x03
  | .drawLine => 0x04
  | .writeChar => 0x05
  | .writeBigChar => 0x06
  | .writeString => 0x07
  | .writeBigString => 0x08
  | .init => 0x10
  | .invert => 0x11
  | .powerOff => 0x12
  | .powerOn => 0x13
  | .flush => 0x14

/-- The opcode an OP field names; `none` for the reserved ones, `0x00`, `0x09`-`0x0F` and `0x15`-`0xFF` (R85). -/
def opOf (b : Byte) : Option Op :=
  match b.toNat with
  | 0x01 => some .clear
  | 0x02 => some .setPixel
  | 0x03 => some .getPixel
  | 0x04 => some .drawLine
  | 0x05 => some .writeChar
  | 0x06 => some .writeBigChar
  | 0x07 => some .writeString
  | 0x08 => some .writeBigString
  | 0x10 => some .init
  | 0x11 => some .invert
  | 0x12 => some .powerOff
  | 0x13 => some .powerOn
  | 0x14 => some .flush
  | _ => none

/-- The must-be-zero mask (R83). -/
def Op.mustBeZero : Op → Word
  | .clear => 0x00FFFFFFFFFFFFFF
  | .setPixel => 0x00FFFFFEFFFF0000
  | .getPixel => 0x00FFFFFFFFFF0000
  | .drawLine => 0x00FFFFFE00000000
  | .writeChar => 0x00FF00FFFFFF0000
  | .writeBigChar => 0x00FF00FFFFFF0000
  | .writeString => 0x0000FFFFFFFF0000
  | .writeBigString => 0x0000FFFFFFFF0000
  | .init => 0x00FFFFFFFFFFFFFF
  | .invert => 0x00FFFFFEFFFFFFFF
  | .powerOff => 0x00FFFFFFFFFFFFFF
  | .powerOn => 0x00FFFFFFFFFFFFFF
  | .flush => 0x00FFFFFFFFFFFFFF

/-! ## Payload words (30_encoding.md R84) -/

/-- `ceil(n / 8)`, the payload words of a string of `n` characters. -/
def ceil8 (n : Nat) : Nat := (n + 7) / 8

/-- Character `j` of the payload words `ps`: byte `j % 8` of word `j / 8`, the low byte first. -/
def charAt (ps : List Word) (j : Nat) : Byte := (ps.getD (j / 8) 0).extractLsb' (8 * (j % 8)) 8

/-- The first `n` characters of the payload words. The bytes past them are ignored. -/
def payloadChars (n : Nat) (ps : List Word) : List Byte := (List.range n).map (charAt ps)

/-- How many payload words follow the command word `w` of opcode `op`. -/
def Op.payloadWords (op : Op) (w : Word) : Nat :=
  match op with
  | .writeString => ceil8 (fieldLEN w).toNat
  | .writeBigString => ceil8 (fieldLEN w).toNat
  | _ => 0

/-! ## Decoding -/

/-- The verdict on a command word, read from the word alone (R86). -/
def checkWord (w : Word) : Except Illegal Op :=
  match opOf (fieldOP w) with
  | none => .error .opcode
  | some op => if w &&& op.mustBeZero = 0 then .ok op else .error .reservedField

/-- The command of a legal word `w` of opcode `op` and the payload words `ps` after it (R82, R84). -/
def operandsOf (op : Op) (w : Word) (ps : List Word) : Instr :=
  match op with
  | .clear => .clear
  | .setPixel => .setPixel (fieldXA w) (fieldYA w) (fieldV w)
  | .getPixel => .getPixel (fieldXA w) (fieldYA w)
  | .drawLine => .drawLine (fieldXA w) (fieldYA w) (fieldXB w) (fieldYB w) (fieldV w)
  | .writeChar => .writeChar (fieldXA w) (fieldYA w) (fieldCH w)
  | .writeBigChar => .writeBigChar (fieldXA w) (fieldYA w) (fieldCH w)
  | .writeString => .writeString (fieldXA w) (fieldYA w) (payloadChars (fieldLEN w).toNat ps)
  | .writeBigString => .writeBigString (fieldXA w) (fieldYA w) (payloadChars (fieldLEN w).toNat ps)
  | .init => .init
  | .invert => .invert (fieldV w)
  | .powerOff => .powerOff
  | .powerOn => .powerOn
  | .flush => .flush

/-- Decoding the words from the command-stream position on. The two illegal verdicts come before the wait for a
payload (R86, 60_exceptions.md R231). -/
def decode : List Word → Decoded
  | [] => .noCommand
  | w :: ps =>
    match checkWord w with
    | .error why => .illegal why w
    | .ok op =>
      if ps.length < op.payloadWords w then .noPayload
      else .instr (operandsOf op w ps) (ps.drop (op.payloadWords w))

/-- The length in words of the command whose first word is `w`, told from that word alone (R88). -/
def commandLength (w : Word) : Nat :=
  if fieldOP w = 0x07 ∨ fieldOP w = 0x08 then 1 + ceil8 (fieldLEN w).toNat else 1

/-! ## Encoding -/

/-- `{OP, LEN, CH, 0b0000000, V, YB, XB, YA, XA}` (R81). -/
def formatC (op len ch : Byte) (v : Bool) (yb xb ya xa : Byte) : Word :=
  op ++ len ++ ch ++ 0#7 ++ BitVec.ofBool v ++ yb ++ xb ++ ya ++ xa

/-- The first word of a command (R83, R85, R89). -/
def Instr.firstWord : Instr → Word
  | .clear => formatC 0x01 0 0 false 0 0 0 0
  | .setPixel x y on => formatC 0x02 0 0 on 0 0 y x
  | .getPixel x y => formatC 0x03 0 0 false 0 0 y x
  | .drawLine x0 y0 x1 y1 on => formatC 0x04 0 0 on y1 x1 y0 x0
  | .writeChar x y ch => formatC 0x05 0 ch false 0 0 y x
  | .writeBigChar x y ch => formatC 0x06 0 ch false 0 0 y x
  | .writeString x y chars => formatC 0x07 (BitVec.ofNat 8 chars.length) 0 false 0 0 y x
  | .writeBigString x y chars => formatC 0x08 (BitVec.ofNat 8 chars.length) 0 false 0 0 y x
  | .init => formatC 0x10 0 0 false 0 0 0 0
  | .invert v => formatC 0x11 0 0 v 0 0 0 0
  | .powerOff => formatC 0x12 0 0 false 0 0 0 0
  | .powerOn => formatC 0x13 0 0 false 0 0 0 0
  | .flush => formatC 0x14 0 0 false 0 0 0 0

/-- Payload word `k` of the characters, the first of its eight in the low byte, unused bytes `0x00` (R84, R89). -/
def payloadWord (chars : List Byte) (k : Nat) : Word :=
  chars.getD (8 * k + 7) 0 ++ chars.getD (8 * k + 6) 0 ++ chars.getD (8 * k + 5) 0 ++ chars.getD (8 * k + 4) 0 ++
    chars.getD (8 * k + 3) 0 ++ chars.getD (8 * k + 2) 0 ++ chars.getD (8 * k + 1) 0 ++ chars.getD (8 * k) 0

/-- The payload words of a string (R84). -/
def payloadOf (chars : List Byte) : List Word := (List.range (ceil8 chars.length)).map (payloadWord chars)

/-- The characters of a command that has a payload; none otherwise. -/
def Instr.chars : Instr → List Byte
  | .writeString _ _ chars => chars
  | .writeBigString _ _ chars => chars
  | _ => []

/-- The words of a command. -/
def encode (i : Instr) : List Word := i.firstWord :: payloadOf i.chars

/-- The words of the numeral `w`, whose bits above `nbits` are zero: word `k` is its bits `64 k + 63 : 64 k`. There
are 33 of them, the length of the longest command (R88). -/
def tableWords (nbits w : Nat) : List Word :=
  (List.range 33).map fun k => BitVec.ofNat 64 ((w % 2 ^ nbits) >>> (64 * k))

/-- The command the decoder reads from the numeral `w`, its bits numbered as spec/opcode_table.json numbers them. -/
def decodeTableWord (nbits w : Nat) : Option Instr :=
  match decode (tableWords nbits w) with
  | .instr i _ => some i
  | _ => none

end Sys2Proof
end

