-- ==== Sys2Proof/Config.lean ====
section
/-! DEFINITION. What is fixed for a run (00_scope.md R6 to R11, 10_state.md R40), and the free values of the model. -/

namespace Sys2Proof

/-- The bus collaborator's reply to one write (43_device.md R190). -/
inductive BusAnswer
  | ok
  | error
deriving DecidableEq, Repr, Inhabited

/-- The parameters of R40. Every value of this type is a legal configuration: the width is held as the number of
columns past 16, so that `16 <= W <= 256` holds by its type (R6), and glyph 0 is not held because it is blank by
R9 (assumption log 1 and 2). -/
structure Config where
  /-- `W - 16`, so that `W` runs over 16 to 256 (R6). -/
  extraColumns : Fin 241
  /-- Glyphs 1 to 36 of `FONT_ROM`, in the source bit order, bit 7 at the top (R9, 42_glyph.md R150). -/
  glyphs : Vector (Vector Byte 8) 36
  /-- `INIT_BYTES`, the command bytes INIT sends (R11). -/
  initBytes : Vector Byte 27
  /-- `BUS_ID` (R10), passed through and never interpreted. -/
  busId : Nat
  /-- `DEV_ADDR` (R10). -/
  devAddr : Nat
  /-- `SDA_PIN` (R10). -/
  sdaPin : Nat
  /-- `SCL_PIN` (R10). -/
  sclPin : Nat
  /-- `BUS_CLK_HZ` (R10). -/
  busClkHz : Nat
deriving DecidableEq, Repr

/-- `W`, the display width in pixels and the framebuffer bytes of one page (R6). -/
def Config.W (c : Config) : Nat := c.extraColumns.val + 16

/-- `H`, the display height in pixels (R7). -/
def Config.H : Nat := 64

/-- `PAGES = H / 8` (R8). -/
def Config.pages : Nat := Config.H / 8

/-- `FB_LEN = (W * H) / 8` (R8). -/
def Config.fbLen (c : Config) : Nat := c.W * Config.H / 8

/-- The default of `INIT_BYTES` for a display `w` columns wide: the table of 43_device.md R191, step by step.
PRESUMED: R191 marks the values general knowledge, but for the column and page ranges (assumption log 3). -/
def Config.defaultInitBytes (w : Nat) : Vector Byte 27 :=
  #v[0xAE, 0xA8, 0x3F, 0xD3, 0x00, 0x40, 0xA1, 0xC8, 0xDA, 0x12, 0x81, 0xFF, 0xA4, 0xA6,
     0xD5, 0x80, 0x8D, 0x14, 0xAF, 0x20, 0x00, 0x21, 0x00, BitVec.ofNat 8 (w - 1), 0x22, 0x00, 0x07]

/-- Free value: byte `i` of the framebuffer after the `epoch`-th reset, before anything writes it (10_state.md R20,
70_reset_and_hazards.md R273; assumption log 4). -/
opaque Config.powerUpByte (epoch i : Nat) : Byte

/-- Free value: the bus collaborator's `n`-th reply that no reply queued in `State.answers` supplies (43_device.md
R190: a free input of the step; assumption log 5). -/
opaque Config.busOracle (n : Nat) : BusAnswer

/-- Free value: the font of the reset configuration; no source gives a glyph byte (91_not_in_source.md N18). -/
opaque Config.freeGlyphs : Vector (Vector Byte 8) 36

/-- Free value: `BUS_ID` of the reset configuration (91_not_in_source.md N3). -/
opaque Config.freeBusId : Nat

/-- Free value: `DEV_ADDR` of the reset configuration. -/
opaque Config.freeDevAddr : Nat

/-- Free value: `SDA_PIN` of the reset configuration. -/
opaque Config.freeSdaPin : Nat

/-- Free value: `SCL_PIN` of the reset configuration. -/
opaque Config.freeSclPin : Nat

/-- Free value: `BUS_CLK_HZ` of the reset configuration. -/
opaque Config.freeBusClkHz : Nat

/-- The configuration `State.reset` is launched with. DESIGN CHOICE: `W = 128`, the width of the spec's worked
vectors (R6); `INIT_BYTES` is R191's default for it; everything else is a free value (assumption log 2). -/
def Config.onReset : Config where
  extraColumns := 112
  glyphs := Config.freeGlyphs
  initBytes := Config.defaultInitBytes 128
  busId := Config.freeBusId
  devAddr := Config.freeDevAddr
  sdaPin := Config.freeSdaPin
  sclPin := Config.freeSclPin
  busClkHz := Config.freeBusClkHz

end Sys2Proof
end

