-- ==== Sys2Proof/Machine/State.lean ====
section
/-! DEFINITION. The state of the machine as plain data (10_state.md R20 to R40), the reasons a step can stop, and the
state after reset (70_reset_and_hazards.md R260). -/

namespace Sys2Proof.Machine

/-- One event on the bus port (43_device.md R190, R192). -/
inductive BusEvent
  /-- `Setup(BUS_ID, BUS_CLK_HZ, SDA_PIN, SCL_PIN)`. -/
  | setup (busId busClkHz sdaPin sclPin : Nat)
  /-- `Write(addr, bytes, answer)`. -/
  | write (addr : Nat) (bytes : List Byte) (answer : BusAnswer)
deriving DecidableEq, Repr

/-- The causes `FAULT_CAUSE` records (60_exceptions.md R233). Their codes are `FaultCause.code`. -/
inductive FaultCause
  /-- Raised by any word whose OP is reserved. -/
  | illegalOpcode
  /-- Raised by a legal opcode with a must-be-zero bit set. -/
  | reservedField
  /-- Raised by SET_PIXEL and GET_PIXEL. -/
  | pixelRange
  /-- Raised by DRAW_LINE. -/
  | lineRange
  /-- Raised by INVERT, POWER_OFF, POWER_ON and FLUSH. -/
  | notInitialized
deriving DecidableEq, Repr

/-- The framebuffer bytes written since reset, by index: strictly rising (`Memory.wf`). An index not listed has not
been written since reset; it holds the free value `Config.powerUpByte`, so no entry can equal what an unlisted
index reads as (assumption log 4). -/
abbrev Memory := List Host.Cell

/-- The state. The fields to `faultPos` are the spec's own; `port`, `busLog` and `answers` are the agents' side of
the three ports; `fbEpoch` and `draws` are the counters of the free values. -/
structure State where
  /-- The run's configuration (R40). No step and no host action changes it (assumption log 1). -/
  cfg : Config
  /-- `FB` (R20). -/
  fb : Memory
  /-- `csp`, in words (R22). -/
  csp : Nat
  /-- `INIT_DONE` (R24). -/
  initDone : Bool
  /-- `POWERED` (R25). -/
  powered : Bool
  /-- `INVERTED` (R26). -/
  inverted : Bool
  /-- `BUS_STATUS`: 0 NONE, 1 OK, 2 ERROR (R28). -/
  busStatus : BitVec 2
  /-- `PIXOUT` (R29). -/
  pixOut : Bool
  /-- `FAULTED` (R30). -/
  faulted : Bool
  /-- `FAULT_CAUSE` (R31). -/
  faultCause : BitVec 4
  /-- `FAULT_CMD` (R32). -/
  faultCmd : Word
  /-- `FAULT_POS` (R33). -/
  faultPos : BitVec 32
  /-- The command port: the words the host has supplied since reset, word 0 first (20_memory.md R50). -/
  port : List Word
  /-- `BUSLOG`, the run's observation, the oldest event first (R39). -/
  busLog : List BusEvent
  /-- The bus collaborator's replies to the coming writes, the next one first; past its end a reply is a free value
  (43_device.md R190, assumption log 5). -/
  answers : List BusAnswer
  /-- How many resets came before: which power-up contents `FB` has (assumption log 4). -/
  fbEpoch : Nat
  /-- How many replies have been drawn from `Config.busOracle` (assumption log 5). -/
  draws : Nat
deriving DecidableEq, Repr

/-- The machine takes no step (assumption log 7). Every constructor is a stuck state of the spec, none an
instruction's own outcome. -/
inductive Fault
  /-- Raised by the prologue when `FAULTED = 1` (60_exceptions.md R249): no step until reset. Safe: the spec says
  the machine has no step. -/
  | halted
  /-- Raised by the prologue when the word at `csp` is not present (R248): held, or the end of a run (R253). Safe:
  the spec says the machine has no step. -/
  | awaitCommand
  /-- Raised by the prologue when a string command's payload words are not all present (R248). Safe: the spec says
  the machine has no step. -/
  | awaitPayload
deriving DecidableEq, Repr

/-- The machine has no meaning for the command. -/
inductive Refusal
  /-- Raised by `exec` for an instruction rejected by name. Safe; no arm of this model raises it. -/
  | notModelled (mnemonic : String)
deriving DecidableEq, Repr

/-- The state at the launch of a run with configuration `c`: every register at the value R260 gives, `FB`
unspecified, `BUSLOG` empty (R39), nothing supplied on the command port. -/
def State.launch (c : Config) : State where
  cfg := c
  fb := []
  csp := 0
  initDone := false
  powered := false
  inverted := false
  busStatus := 0
  pixOut := false
  faulted := false
  faultCause := 0
  faultCmd := 0
  faultPos := 0
  port := []
  busLog := []
  answers := []
  fbEpoch := 0
  draws := 0

/-- The machine right after reset (R260), launched with `Config.onReset`. -/
def State.reset : State := State.launch Config.onReset

end Sys2Proof.Machine
end

