-- ==== Sys2Proof/Machine/Flags.lean ====
section
/-! DEFINITION. The flag computations: fault codes (60_exceptions.md R233), the outcome field `BUS_STATUS`
(10_state.md R28), and the three words of the status port (R34). There are no condition codes (R36). -/

namespace Sys2Proof.Machine

/-- The code `FAULT_CAUSE` holds (R233). -/
def FaultCause.code : FaultCause → BitVec 4
  | .illegalOpcode => 1
  | .reservedField => 2
  | .pixelRange => 3
  | .lineRange => 4
  | .notInitialized => 5

/-- `BUS_STATUS` after a command whose transfers ended with this answer: 1 OK, 2 ERROR (R28). -/
def busStatusOf : BusAnswer → BitVec 2
  | .ok => 1
  | .error => 2

/-- `STATUS` (R34), the highest field first: bits 31:11 reserved and zero, 10:9 `BUS_STATUS`, 8 `PIXOUT`, 7:4
`FAULT_CAUSE`, 3 `FAULTED`, 2 `INVERTED`, 1 `POWERED`, 0 `INIT_DONE`. -/
def statusWord (s : State) : BitVec 32 :=
  0#21 ++ s.busStatus ++ BitVec.ofBool s.pixOut ++ s.faultCause ++ BitVec.ofBool s.faulted ++
    BitVec.ofBool s.inverted ++ BitVec.ofBool s.powered ++ BitVec.ofBool s.initDone

/-- `FAULT_CMD_W` (R34). -/
def faultCmdWord (s : State) : Word := s.faultCmd

/-- `FAULT_POS_W` (R34). -/
def faultPosWord (s : State) : BitVec 32 := s.faultPos

end Sys2Proof.Machine
end

