-- ==== Sys2Proof/Machine/Operands.lean ====
section
/-! DEFINITION. The operand forms: pixel coordinates, clip bounds, character codes and glyph bytes, each as a function
of the configuration and the operand fields alone (20_memory.md R51 to R54, 40_pixel.md R110, 42_glyph.md R150 to
R160). Coordinates are natural numbers and never wrap (00_scope.md R13). -/

namespace Sys2Proof.Machine

/-! ## Pixel coordinates -/

/-- `page(y) = y / 8` (R51). -/
def page (y : Nat) : Nat := y / 8

/-- `byteIndex(x, y) = (y / 8) * W + x` (R51). -/
def byteIndex (c : Config) (x y : Nat) : Nat := page y * c.W + x

/-- `bitIndex(y) = y % 8`, bit 0 at the top row of the page (R51). -/
def bitIndex (y : Nat) : Nat := y % 8

/-- The column of byte `i`, `i % W` (R52). -/
def columnOf (c : Config) (i : Nat) : Nat := i % c.W

/-- The row of bit `b` of byte `i`, `8 * (i / W) + b` (R52). -/
def rowOf (c : Config) (i b : Nat) : Nat := 8 * (i / c.W) + b

/-- `inRange(x, y)` (R110). -/
def inRange (c : Config) (x y : Nat) : Bool := decide (x < c.W) && decide (y < Config.H)

/-! ## Clip bounds (R154), on the raw `y` -/

/-- `clip8(x, y)`: a normal glyph's origin fails its bound. -/
def clip8 (c : Config) (x y : Nat) : Bool := decide (x > c.W - 8) || decide (y > Config.H - 8)

/-- `clip16(x, y)`: a double-size glyph's origin fails its bound. -/
def clip16 (c : Config) (x y : Nat) : Bool := decide (x > c.W - 16) || decide (y > Config.H - 16)

/-! ## The bits of a byte -/

/-- `old` with bit `b` set or cleared (40_pixel.md R112). -/
def withBit (old : Byte) (b : Nat) (on : Bool) : Byte :=
  if on then old ||| (1#8 <<< b) else old &&& ~~~(1#8 <<< b)

/-- `reverse8(b)[k] = b[7 - k]` (R151). The most significant bit stands first. -/
def reverse8 (b : Byte) : Byte :=
  BitVec.ofBool (b.getLsbD 0) ++ BitVec.ofBool (b.getLsbD 1) ++ BitVec.ofBool (b.getLsbD 2) ++
    BitVec.ofBool (b.getLsbD 3) ++ BitVec.ofBool (b.getLsbD 4) ++ BitVec.ofBool (b.getLsbD 5) ++
    BitVec.ofBool (b.getLsbD 6) ++ BitVec.ofBool (b.getLsbD 7)

/-- Bit `k` of `g`, twice. -/
def doubledBit (g : Byte) (k : Nat) : BitVec 2 := BitVec.ofBool (g.getLsbD k) ++ BitVec.ofBool (g.getLsbD k)

/-- `double16(g)[2k] = double16(g)[2k + 1] = g[k]` (R160). -/
def double16 (g : Byte) : BitVec 16 :=
  doubledBit g 7 ++ doubledBit g 6 ++ doubledBit g 5 ++ doubledBit g 4 ++
    doubledBit g 3 ++ doubledBit g 2 ++ doubledBit g 1 ++ doubledBit g 0

/-- `d[7:0]`, the byte of the target page (R162). -/
def lowByte (d : BitVec 16) : Byte := d.extractLsb' 0 8

/-- `d[15:8]`, the byte of the page below (R162). -/
def highByte (d : BitVec 16) : Byte := d.extractLsb' 8 8

/-! ## Characters and glyphs -/

/-- `up(ch)`: `'a'..'z'` to `'A'..'Z'`, all else unchanged (R153). -/
def up (ch : Nat) : Nat := if 0x61 ≤ ch ∧ ch ≤ 0x7A then ch - 0x20 else ch

/-- `index(ch)`: 1 to 26 for letters, 27 to 36 for digits, 0 for everything else (R153). -/
def glyphIndex (ch : Byte) : Nat :=
  let u := up ch.toNat
  if 0x41 ≤ u ∧ u ≤ 0x5A then u - 0x40
  else if 0x30 ≤ u ∧ u ≤ 0x39 then u - 0x30 + 27
  else 0

/-- `FONT_ROM[idx][c]` (R150): glyph 0 is blank (00_scope.md R9), glyphs 1 to 36 are the configuration's. No rule
forms an index past 36 or a column past 7. -/
def fontRom (c : Config) (idx col : Nat) : Byte :=
  match idx with
  | 0 => 0
  | g + 1 =>
    match c.glyphs.toList[g]? with
    | some glyph => glyph.toList.getD col 0
    | none => 0

/-- `Glyph(idx, c) = reverse8(FONT_ROM[idx][c])` (R152), computed at each use (10_state.md R37). -/
def glyphByte (c : Config) (idx col : Nat) : Byte := reverse8 (fontRom c idx col)

end Sys2Proof.Machine
end

