-- ==== Sys2Proof/Machine/Ops.lean ====
section
/-! DEFINITION. The shared operations: framebuffer access, taking a fault, moving the command-stream position, and the
bus port. Each is one primitive of 00_scope.md R14. -/

namespace Sys2Proof.Machine

/-! ## The framebuffer -/

/-- The canonical form: indices strictly rising. -/
abbrev Memory.wf (m : Memory) : Prop := m.Pairwise fun a b => a.1 < b.1

/-- Every listed index is below `n`. -/
abbrev Memory.below (n : Nat) (m : Memory) : Prop := ∀ a ∈ m, a.1 < n

/-- The byte listed at index `i`, if one is. -/
def Memory.read : Memory → Nat → Option Byte
  | [], _ => none
  | (j, v) :: m, i => if i = j then some v else Memory.read m i

/-- `m` with byte `v` at index `i`. -/
def Memory.write : Memory → Nat → Byte → Memory
  | [], i, v => [(i, v)]
  | (j, u) :: m, i, v =>
    if i < j then (i, v) :: (j, u) :: m
    else if i = j then (i, v) :: m
    else (j, u) :: Memory.write m i v

/-- Bytes `0 .. n-1`, each `0x00`. -/
def Memory.zeros (n : Nat) : Memory := (List.range n).map fun i => (i, 0)

/-- `MemRead(i, 1)`. A byte not written since reset reads as its power-up value, a free value (10_state.md R20);
reading it is no fault (60_exceptions.md R239). -/
def memRead (s : State) (i : Nat) : Byte := (s.fb.read i).getD (Config.powerUpByte s.fbEpoch i)

/-- `MemWrite(i, 1, v)`. -/
def memWrite (s : State) (i : Nat) (v : Byte) : State := { s with fb := s.fb.write i v }

/-- The framebuffer's bytes in index order (43_device.md R202). -/
def fbBytes (s : State) : List Byte := (List.range s.cfg.fbLen).map (memRead s)

/-! ## Sequencing -/

/-- `csp <- csp + n`. -/
def advance (n : Nat) (s : State) : State := { s with csp := s.csp + n }

/-- `raise Fault(code)`: fault entry, the whole of it (60_exceptions.md R232). `w0` is the command's first word;
`csp` is not advanced. There is no return from a fault but reset (R242). -/
def raiseFault (cause : FaultCause) (w0 : Word) (s : State) : State :=
  { s with
    faulted := true
    faultCause := cause.code
    faultCmd := w0
    faultPos := BitVec.ofNat 32 (s.csp % 2 ^ 32) }

/-! ## The bus port -/

/-- The control byte and the one command byte of a `Command(b)` transfer (43_device.md R190, R193). -/
def commandTransfer (b : Byte) : List Byte := [0x00, b]

/-- The control byte and the bytes of a `Data(d)` transfer (R190, R194). -/
def dataTransfer (d : List Byte) : List Byte := 0x40 :: d

/-- `BusSetup()` (R192). -/
def busSetup (s : State) : State :=
  { s with busLog := s.busLog ++ [.setup s.cfg.busId s.cfg.busClkHz s.cfg.sdaPin s.cfg.sclPin] }

/-- The bus collaborator's reply to the next write: the next queued one, else a free value. -/
def nextAnswer (s : State) : BusAnswer := s.answers.headD (Config.busOracle s.draws)

/-- `BusWrite(DEV_ADDR, bytes)` (R190): the reply, and the state with the event appended to `BUSLOG`. -/
def busWrite (bytes : List Byte) (s : State) : BusAnswer × State :=
  (nextAnswer s,
    { s with
      busLog := s.busLog ++ [.write s.cfg.devAddr bytes (nextAnswer s)]
      answers := s.answers.tail
      draws := if s.answers.isEmpty then s.draws + 1 else s.draws })

end Sys2Proof.Machine
end

