-- ==== Sys2Proof/Machine/Device.lean ====
section
/-! DEFINITION. INIT, INVERT, POWER_OFF, POWER_ON and FLUSH (43_device.md), the only commands that emit bus events. A
bus error is not a fault (R197). -/

namespace Sys2Proof.Machine

/-- Writes the command bytes one transfer each, stopping at the first error (R193, R195, R197). The answer is the
last one received; for no byte at all it is `ok`. -/
def sendCommands : List Byte → State → BusAnswer × State
  | [], s => (.ok, s)
  | b :: bs, s =>
    match busWrite (commandTransfer b) s with
    | (.error, t) => (.error, t)
    | (.ok, t) => sendCommands bs t

/-- The registers INIT writes at its end (R195). An error leaves `POWERED` and `INVERTED` as they were. -/
def finishInit : BusAnswer → State → State
  | .ok, s => { s with initDone := true, powered := true, inverted := false, busStatus := busStatusOf .ok }
  | .error, s => { s with initDone := false, busStatus := busStatusOf .error }

/-- The pseudocode of R195. -/
def initEffect (s : State) : State :=
  let r := sendCommands s.cfg.initBytes.toList (busSetup s)
  finishInit r.1 r.2

/-- One transfer, then `onOk` if it was answered `ok`; `BUS_STATUS` records the answer either way (R197). -/
def oneTransfer (bytes : List Byte) (onOk : State → State) (s : State) : State :=
  match busWrite bytes s with
  | (.ok, t) => { onOk t with busStatus := busStatusOf .ok }
  | (.error, t) => { t with busStatus := busStatusOf .error }

/-- The command byte of INVERT, `0xA6 | v` (R198). -/
def invertByte (v : Bool) : Byte := 0xA6#8 ||| (BitVec.ofBool v).setWidth 8

/-- INIT (R195). -/
def execInit (s : State) : Host.Outcome State Fault Refusal := .next (advance 1 (initEffect s))

/-- INVERT v (R198). -/
def execInvert (v : Bool) (s : State) : Host.Outcome State Fault Refusal :=
  if s.initDone then
    .next (advance 1 (oneTransfer (commandTransfer (invertByte v)) (fun t => { t with inverted := v }) s))
  else .next (raiseFault .notInitialized (Instr.invert v).firstWord s)

/-- POWER_OFF (R200). -/
def execPowerOff (s : State) : Host.Outcome State Fault Refusal :=
  if s.initDone then
    .next (advance 1 (oneTransfer (commandTransfer 0xAE) (fun t => { t with powered := false }) s))
  else .next (raiseFault .notInitialized Instr.powerOff.firstWord s)

/-- POWER_ON (R201). -/
def execPowerOn (s : State) : Host.Outcome State Fault Refusal :=
  if s.initDone then
    .next (advance 1 (oneTransfer (commandTransfer 0xAF) (fun t => { t with powered := true }) s))
  else .next (raiseFault .notInitialized Instr.powerOn.firstWord s)

/-- FLUSH (R202): the whole framebuffer in one transfer (R194). -/
def execFlush (s : State) : Host.Outcome State Fault Refusal :=
  if s.initDone then .next (advance 1 (oneTransfer (dataTransfer (fbBytes s)) (fun t => t) s))
  else .next (raiseFault .notInitialized Instr.flush.firstWord s)

end Sys2Proof.Machine
end

