-- ==== Sys2Proof/Machine/Glyph.lean ====
section
/-! DEFINITION. WRITE_CHAR, WRITE_BIG_CHAR, WRITE_STRING and WRITE_BIG_STRING (42_glyph.md). None of them faults. -/

namespace Sys2Proof.Machine

/-- The pseudocode of R155, clip included; also `WRITE_CHAR_BODY` of R170. The row is quantized to its page. -/
def drawChar (x y : Nat) (ch : Byte) (s : State) : State :=
  if clip8 s.cfg x y then s
  else
    (List.range 8).foldl
      (fun t c => memWrite t (page y * t.cfg.W + x + c) (glyphByte t.cfg (glyphIndex ch) c)) s

/-- The four writes of one column of a double-size glyph (R162): the column pair `x + 2c`, `x + 2c + 1` of the
target page `p` and of the page below. -/
def drawBigColumn (p x : Nat) (ch : Byte) (s : State) (c : Nat) : State :=
  let d := double16 (glyphByte s.cfg (glyphIndex ch) c)
  (List.range 2).foldl
    (fun t k =>
      memWrite (memWrite t (p * t.cfg.W + x + 2 * c + k) (lowByte d))
        ((p + 1) * t.cfg.W + x + 2 * c + k) (highByte d)) s

/-- The pseudocode of R162, clip included; also `WRITE_BIG_CHAR_BODY` of R175. -/
def drawBigChar (x y : Nat) (ch : Byte) (s : State) : State :=
  if clip16 s.cfg x y then s else (List.range 8).foldl (drawBigColumn (page y) x ch) s

/-- The characters of a normal-size string: character `j` at `x + 8 * j` (R170). -/
def drawString (x y : Nat) (chars : List Byte) (s : State) : State :=
  if clip8 s.cfg x y then s
  else chars.zipIdx.foldl (fun t cj => drawChar (x + 8 * cj.2) y cj.1 t) s

/-- The characters of a double-size string: character `j` at `x + 16 * j` (R175). -/
def drawBigString (x y : Nat) (chars : List Byte) (s : State) : State :=
  if clip16 s.cfg x y then s
  else chars.zipIdx.foldl (fun t cj => drawBigChar (x + 16 * cj.2) y cj.1 t) s

/-- WRITE_CHAR x, y, ch (R155). -/
def execWriteChar (x y ch : Byte) (s : State) : Host.Outcome State Fault Refusal :=
  .next (advance 1 (drawChar x.toNat y.toNat ch s))

/-- WRITE_BIG_CHAR x, y, ch (R162). -/
def execWriteBigChar (x y ch : Byte) (s : State) : Host.Outcome State Fault Refusal :=
  .next (advance 1 (drawBigChar x.toNat y.toNat ch s))

/-- WRITE_STRING x, y, chars (R170): one step, `csp` moves past the payload. -/
def execWriteString (x y : Byte) (chars : List Byte) (s : State) : Host.Outcome State Fault Refusal :=
  .next (advance (1 + ceil8 chars.length) (drawString x.toNat y.toNat chars s))

/-- WRITE_BIG_STRING x, y, chars (R175): one step, `csp` moves past the payload. -/
def execWriteBigString (x y : Byte) (chars : List Byte) (s : State) : Host.Outcome State Fault Refusal :=
  .next (advance (1 + ceil8 chars.length) (drawBigString x.toNat y.toNat chars s))

end Sys2Proof.Machine
end

