-- ==== Sys2Proof/Machine/Pixel.lean ====
section
/-! DEFINITION. CLEAR, SET_PIXEL and GET_PIXEL (40_pixel.md). -/

namespace Sys2Proof.Machine

/-- `pixel(x, y) = FB[byteIndex(x, y)][bitIndex(y)]` (20_memory.md R51). -/
def pixel (s : State) (x y : Nat) : Bool := (memRead s (byteIndex s.cfg x y)).getLsbD (bitIndex y)

/-- The byte update of SET_PIXEL, without its range check (R112; `plot` in 41_line.md R131). -/
def plot (on : Bool) (s : State) (x y : Nat) : State :=
  let i := byteIndex s.cfg x y
  memWrite s i (withBit (memRead s i) (bitIndex y) on)

/-- Every byte `0 .. FB_LEN-1` to `0x00`. The loop of R111 leaves exactly this list (assumption log 11). -/
def clearFb (s : State) : State := { s with fb := Memory.zeros s.cfg.fbLen }

/-- CLEAR (R111). -/
def execClear (s : State) : Host.Outcome State Fault Refusal := .next (advance 1 (clearFb s))

/-- SET_PIXEL x, y, on (R112). -/
def execSetPixel (x y : Byte) (on : Bool) (s : State) : Host.Outcome State Fault Refusal :=
  if inRange s.cfg x.toNat y.toNat then .next (advance 1 (plot on s x.toNat y.toNat))
  else .next (raiseFault .pixelRange (Instr.setPixel x y on).firstWord s)

/-- GET_PIXEL x, y (R114). -/
def execGetPixel (x y : Byte) (s : State) : Host.Outcome State Fault Refusal :=
  if inRange s.cfg x.toNat y.toNat then .next (advance 1 { s with pixOut := pixel s x.toNat y.toNat })
  else .next (raiseFault .pixelRange (Instr.getPixel x y).firstWord s)

end Sys2Proof.Machine
end

