-- ==== Sys2Proof/Machine/Line.lean ====
section
/-! DEFINITION. DRAW_LINE (41_line.md). -/

namespace Sys2Proof.Machine

/-- The step sign of one coordinate: `+1` when it rises, else `-1` (R131, R133). -/
def stepSign (a b : Int) : Int := if a < b then 1 else -1

/-- The loop of R131 from the point `(x, y)` with error `err`: the points it plots, in plotting order. Both tests of
an iteration compare the one snapshot `2 * err` (R134). The first argument bounds the number of points; see
`linePoints`. -/
def lineLoop (x1 y1 dx dy sx sy : Int) : Nat → Int → Int → Int → List (Int × Int)
  | 0, _, _, _ => []
  | fuel + 1, x, y, err =>
    (x, y) ::
      if x = x1 ∧ y = y1 then []
      else
        let e2 := 2 * err
        let goX := decide (e2 ≥ dy)
        let goY := decide (e2 ≤ dx)
        lineLoop x1 y1 dx dy sx sy fuel
          (if goX then x + sx else x)
          (if goY then y + sy else y)
          (err + (if goX then dy else 0) + (if goY then dx else 0))

/-- The points of the line from `(x0, y0)` to `(x1, y1)`, in plotting order (R131). The endpoint order matters
(R136). The bound `dx + |dy| + 1` is never reached before the endpoint (assumption log 10). -/
def linePoints (x0 y0 x1 y1 : Int) : List (Int × Int) :=
  let dx : Int := (x1 - x0).natAbs
  let dy : Int := -((y1 - y0).natAbs : Int)
  lineLoop x1 y1 dx dy (stepSign x0 x1) (stepSign y0 y1)
    ((x1 - x0).natAbs + (y1 - y0).natAbs + 1) x0 y0 (dx + dy)

/-- Plots the points in order. -/
def plotAll (on : Bool) (s : State) (points : List (Int × Int)) : State :=
  points.foldl (fun t p => plot on t p.1.toNat p.2.toNat) s

/-- DRAW_LINE x0, y0, x1, y1, on (R131). Both endpoints are checked before anything is plotted (R135). -/
def execDrawLine (x0 y0 x1 y1 : Byte) (on : Bool) (s : State) : Host.Outcome State Fault Refusal :=
  if inRange s.cfg x0.toNat y0.toNat && inRange s.cfg x1.toNat y1.toNat then
    .next (advance 1 (plotAll on s (linePoints x0.toNat y0.toNat x1.toNat y1.toNat)))
  else .next (raiseFault .lineRange (Instr.drawLine x0 y0 x1 y1 on).firstWord s)

end Sys2Proof.Machine
end

