-- ==== Sys2Proof/Machine/Dispatch.lean ====
section
/-! DEFINITION. One arm for each command. -/

namespace Sys2Proof.Machine

def exec (i : Instr) (s : State) : Host.Outcome State Fault Refusal :=
  match i with
  | .clear => Sys2Proof.Machine.execClear s
  | .setPixel x y on => Sys2Proof.Machine.execSetPixel x y on s
  | .getPixel x y => Sys2Proof.Machine.execGetPixel x y s
  | .drawLine x0 y0 x1 y1 on => Sys2Proof.Machine.execDrawLine x0 y0 x1 y1 on s
  | .writeChar x y ch => Sys2Proof.Machine.execWriteChar x y ch s
  | .writeBigChar x y ch => Sys2Proof.Machine.execWriteBigChar x y ch s
  | .writeString x y chars => Sys2Proof.Machine.execWriteString x y chars s
  | .writeBigString x y chars => Sys2Proof.Machine.execWriteBigString x y chars s
  | .init => Sys2Proof.Machine.execInit s
  | .invert v => Sys2Proof.Machine.execInvert v s
  | .powerOff => Sys2Proof.Machine.execPowerOff s
  | .powerOn => Sys2Proof.Machine.execPowerOn s
  | .flush => Sys2Proof.Machine.execFlush s

end Sys2Proof.Machine
end

