-- ==== Sys2Proof/Machine/Fetch.lean ====
section
/-! DEFINITION. The common prologue of every step (60_exceptions.md R231): the halt, the hold, and the two faults of
decoding; and where a command's words lie on the command port. -/

namespace Sys2Proof.Machine

/-- What the prologue finds: a command to run, or the step's whole outcome. -/
inductive Fetched
  | run (i : Instr)
  | done (o : Host.Outcome State Fault Refusal)

/-- The cause recorded for an illegal verdict (R234, R235). -/
def illegalCause : Illegal → FaultCause
  | .opcode => .illegalOpcode
  | .reservedField => .reservedField

/-- The words from `csp` on (10_state.md R22). -/
def wordsAtCsp (s : State) : List Word := s.port.drop s.csp

/-- The prologue (R231). -/
def fetch (s : State) : Fetched :=
  if s.faulted then .done (.fault .halted)
  else
    match decode (wordsAtCsp s) with
    | .instr i _ => .run i
    | .illegal why w0 => .done (.next (raiseFault (illegalCause why) w0 s))
    | .noCommand => .done (.fault .awaitCommand)
    | .noPayload => .done (.fault .awaitPayload)

/-- The port with `ws` in place of the words from position `pos` on; a port shorter than `pos` is filled with zero
words first. -/
def placeWords (port : List Word) (pos : Nat) (ws : List Word) : List Word :=
  port.take pos ++ List.replicate (pos - port.length) 0 ++ ws ++ port.drop (pos + ws.length)

end Sys2Proof.Machine
end

