-- ==== Sys2Proof/Machine/Step.lean ====
section
/-! DEFINITION. One step of the machine: the prologue, then the command (60_exceptions.md R231). -/

namespace Sys2Proof.Machine

/-- One step. A command is one atomic step (20_memory.md R56); its meaning moves `csp` when it does not fault. -/
def step (s : State) : Host.Outcome State Fault Refusal :=
  match fetch s with
  | .run i => exec i s
  | .done o => o

/-- `s` with the instruction whose bits are `w` placed at `csp`, so that the next step runs it: this stands for the
host's supply of its words (assumption log 6). -/
def State.withFetchWord (s : State) (nbits w : Nat) : State :=
  { s with port := placeWords s.port s.csp (tableWords nbits w) }

end Sys2Proof.Machine
end

