-- ==== Sys2Proof/Machine/Assembler.lean ====
section
/-! DEFINITION. The assembler (30_encoding.md R89, R90): a line of text to an assembly term, and a term to words. The
machine never reads it. -/

namespace Sys2Proof.Machine

/-- One assembly line: the commands and `.word` of R89, and the pseudo-instructions of R90. Operands are numbers that
may not fit their fields. -/
inductive Asm
  | clear
  | setPixel (x y v : Nat)
  | getPixel (x y : Nat)
  | drawLine (x0 y0 x1 y1 v : Nat)
  | writeChar (x y ch : Nat)
  | writeBigChar (x y ch : Nat)
  | writeString (x y : Nat) (s : List Byte)
  | writeBigString (x y : Nat) (s : List Byte)
  | init
  | invert (v : Nat)
  | powerOff
  | powerOn
  | flush
  | word (w : Nat)
  | nop
  | hline (x0 x1 y v : Nat)
  | vline (x y0 y1 v : Nat)
  | pixelOn (x y : Nat)
  | pixelOff (x y : Nat)
  | normal
deriving DecidableEq, Repr

/-- The expansion of a pseudo-instruction (R90); any other line is its own expansion. -/
def expand : Asm → Asm
  | .nop => .writeString 0 0 []
  | .hline x0 x1 y v => .drawLine x0 y x1 y v
  | .vline x y0 y1 v => .drawLine x y0 x y1 v
  | .pixelOn x y => .setPixel x y 1
  | .pixelOff x y => .setPixel x y 0
  | .normal => .invert 0
  | a => a

/-- A coordinate or a character code, refused outside `0..255` (R89). -/
def byteOperand (n : Nat) : Option Byte := if n < 256 then some (BitVec.ofNat 8 n) else none

/-- The operand `v`, refused unless 0 or 1 (R89). -/
def bitOperand (n : Nat) : Option Bool :=
  match n with
  | 0 => some false
  | 1 => some true
  | _ => none

/-- A string, refused past 255 bytes (R89). -/
def stringOperand (s : List Byte) : Option (List Byte) := if s.length ≤ 255 then some s else none

/-- The words of a line without pseudo-instructions (R89), or `none` where an operand does not fit its field. -/
def assembleCore : Asm → Option (List Word)
  | .clear => some (encode .clear)
  | .setPixel x y v => do some (encode (.setPixel (← byteOperand x) (← byteOperand y) (← bitOperand v)))
  | .getPixel x y => do some (encode (.getPixel (← byteOperand x) (← byteOperand y)))
  | .drawLine x0 y0 x1 y1 v => do
    some (encode (.drawLine (← byteOperand x0) (← byteOperand y0) (← byteOperand x1) (← byteOperand y1)
      (← bitOperand v)))
  | .writeChar x y ch => do some (encode (.writeChar (← byteOperand x) (← byteOperand y) (← byteOperand ch)))
  | .writeBigChar x y ch => do some (encode (.writeBigChar (← byteOperand x) (← byteOperand y) (← byteOperand ch)))
  | .writeString x y s => do some (encode (.writeString (← byteOperand x) (← byteOperand y) (← stringOperand s)))
  | .writeBigString x y s => do
    some (encode (.writeBigString (← byteOperand x) (← byteOperand y) (← stringOperand s)))
  | .init => some (encode .init)
  | .invert v => do some (encode (.invert (← bitOperand v)))
  | .powerOff => some (encode .powerOff)
  | .powerOn => some (encode .powerOn)
  | .flush => some (encode .flush)
  | .word w => if w < 2 ^ 64 then some [BitVec.ofNat 64 w] else none
  | .nop => none
  | .hline _ _ _ _ => none
  | .vline _ _ _ _ => none
  | .pixelOn _ _ => none
  | .pixelOff _ _ => none
  | .normal => none

/-- The words of a line (R89, R90). -/
def assemble (a : Asm) : Option (List Word) := assembleCore (expand a)

/-- The words of a program, one line after the other. -/
def assembleAll : List Asm → Option (List Word)
  | [] => some []
  | a :: rest => do some ((← assemble a) ++ (← assembleAll rest))

/-! ## Text (R89; the conventions R89 leaves open are in assumption log 13) -/

/-- A token of a line. -/
inductive Token
  | name (cs : List Char)
  | num (n : Nat)
  | str (bytes : List Byte)
  | comma
deriving DecidableEq, Repr

/-- A character of a mnemonic. -/
def isNameChar (c : Char) : Bool := c.isAlphanum || c == '_' || c == '.'

/-- The value of a hexadecimal digit, of either case. -/
def hexDigit (c : Char) : Option Nat :=
  if c.isDigit then some (c.toNat - 48)
  else if 'a' ≤ c ∧ c ≤ 'f' then some (c.toNat - 87)
  else if 'A' ≤ c ∧ c ≤ 'F' then some (c.toNat - 55)
  else none

/-- The value of a decimal digit. -/
def decDigit (c : Char) : Option Nat := if c.isDigit then some (c.toNat - 48) else none

/-- The number the digits write in a base, after the digits already read. -/
def digits (base : Nat) (digit : Char → Option Nat) : Nat → List Char → Option Nat
  | acc, [] => some acc
  | acc, c :: cs => do digits base digit (acc * base + (← digit c)) cs

/-- A decimal number, or a hexadecimal one after `0x`. -/
def number : List Char → Option Nat
  | '0' :: 'x' :: c :: cs => digits 16 hexDigit 0 (c :: cs)
  | cs => digits 10 decDigit 0 cs

/-- The ASCII code of a character, if it has one. -/
def asciiCode (c : Char) : Option Byte := if c.toNat < 128 then some (BitVec.ofNat 8 c.toNat) else none

/-- A string's bytes up to its closing quote, and what follows. `\xHH` is byte `0xHH`, `\\` a backslash, `\"` a
quote (R89). DESIGN CHOICE (assumption log 13): R89 does not say what any other use of a backslash is; here a backslash
before another character, or `\x` without two hexadecimal digits after it, refuses the line, and so does a string that
is not closed. -/
def stringBytes : List Char → Option (List Byte × List Char)
  | [] => none
  | '"' :: cs => some ([], cs)
  | '\\' :: 'x' :: a :: b :: cs => do
    let hi ← hexDigit a
    let lo ← hexDigit b
    let r ← stringBytes cs
    some (BitVec.ofNat 8 (16 * hi + lo) :: r.1, r.2)
  | '\\' :: '\\' :: cs => do
    let r ← stringBytes cs
    some (0x5C :: r.1, r.2)
  | '\\' :: '"' :: cs => do
    let r ← stringBytes cs
    some (0x22 :: r.1, r.2)
  | '\\' :: _ => none
  | c :: cs => do
    let b ← asciiCode c
    let r ← stringBytes cs
    some (b :: r.1, r.2)

/-- The tokens of a line. The first argument bounds their number. DESIGN CHOICE (assumption log 13): a quoted character
is a number like any other, so it may stand where R89 does not speak of one: as a coordinate, as `v` or after
`.word`. -/
def tokens : Nat → List Char → Option (List Token)
  | _, [] => some []
  | 0, _ :: _ => none
  | fuel + 1, c :: cs =>
    if c == ' ' || c == '\t' then tokens fuel cs
    else if c == ',' then (tokens fuel cs).map (.comma :: ·)
    else if c == '"' then do
      let r ← stringBytes cs
      (tokens fuel r.2).map (.str r.1 :: ·)
    else if c == '\'' then
      match cs with
      | q :: '\'' :: rest => do
        let b ← asciiCode q
        (tokens fuel rest).map (.num b.toNat :: ·)
      | _ => none
    else if c.isDigit then do
      let n ← number (c :: cs.takeWhile isNameChar)
      (tokens fuel (cs.dropWhile isNameChar)).map (.num n :: ·)
    else if isNameChar c then
      (tokens fuel (cs.dropWhile isNameChar)).map (.name (c :: cs.takeWhile isNameChar) :: ·)
    else none

/-- The mnemonics, each with the line it opens when the operands are these tokens. DESIGN CHOICE (assumption log 13):
the operand of `.word` is any number, decimal or hexadecimal and of any count of digits, where R89 shows `0x` and
sixteen hexadecimal digits. -/
def lineOf (mnemonic : List Char) (operands : List Token) : Option Asm :=
  if mnemonic = "CLEAR".toList then match operands with
    | [] => some .clear
    | _ => none
  else if mnemonic = "SET_PIXEL".toList then match operands with
    | [.num x, .comma, .num y, .comma, .num v] => some (.setPixel x y v)
    | _ => none
  else if mnemonic = "GET_PIXEL".toList then match operands with
    | [.num x, .comma, .num y] => some (.getPixel x y)
    | _ => none
  else if mnemonic = "DRAW_LINE".toList then match operands with
    | [.num x0, .comma, .num y0, .comma, .num x1, .comma, .num y1, .comma, .num v] => some (.drawLine x0 y0 x1 y1 v)
    | _ => none
  else if mnemonic = "WRITE_CHAR".toList then match operands with
    | [.num x, .comma, .num y, .comma, .num ch] => some (.writeChar x y ch)
    | _ => none
  else if mnemonic = "WRITE_BIG_CHAR".toList then match operands with
    | [.num x, .comma, .num y, .comma, .num ch] => some (.writeBigChar x y ch)
    | _ => none
  else if mnemonic = "WRITE_STRING".toList then match operands with
    | [.num x, .comma, .num y, .comma, .str s] => some (.writeString x y s)
    | _ => none
  else if mnemonic = "WRITE_BIG_STRING".toList then match operands with
    | [.num x, .comma, .num y, .comma, .str s] => some (.writeBigString x y s)
    | _ => none
  else if mnemonic = "INIT".toList then match operands with
    | [] => some .init
    | _ => none
  else if mnemonic = "INVERT".toList then match operands with
    | [.num v] => some (.invert v)
    | _ => none
  else if mnemonic = "POWER_OFF".toList then match operands with
    | [] => some .powerOff
    | _ => none
  else if mnemonic = "POWER_ON".toList then match operands with
    | [] => some .powerOn
    | _ => none
  else if mnemonic = "FLUSH".toList then match operands with
    | [] => some .flush
    | _ => none
  else if mnemonic = ".word".toList then match operands with
    | [.num w] => some (.word w)
    | _ => none
  else if mnemonic = "NOP".toList then match operands with
    | [] => some .nop
    | _ => none
  else if mnemonic = "HLINE".toList then match operands with
    | [.num x0, .comma, .num x1, .comma, .num y, .comma, .num v] => some (.hline x0 x1 y v)
    | _ => none
  else if mnemonic = "VLINE".toList then match operands with
    | [.num x, .comma, .num y0, .comma, .num y1, .comma, .num v] => some (.vline x y0 y1 v)
    | _ => none
  else if mnemonic = "PIXEL_ON".toList then match operands with
    | [.num x, .comma, .num y] => some (.pixelOn x y)
    | _ => none
  else if mnemonic = "PIXEL_OFF".toList then match operands with
    | [.num x, .comma, .num y] => some (.pixelOff x y)
    | _ => none
  else if mnemonic = "NORMAL".toList then match operands with
    | [] => some .normal
    | _ => none
  else none

/-- A line of text: the mnemonic first, the operands separated by commas. -/
def parseLine (line : List Char) : Option Asm :=
  match tokens line.length line with
  | some (.name m :: operands) => lineOf m operands
  | _ => none

/-- The words of a line of text. -/
def assembleLine (line : List Char) : Option (List Word) := (parseLine line).bind assemble

end Sys2Proof.Machine
end

