-- ==== Sys2Proof/Machine/HostPort.lean ====
section
/-! DEFINITION. What the host and the bus collaborator do to the machine between two steps (60_exceptions.md R252), and
what the host reads (10_state.md R34, R35). -/

namespace Sys2Proof.Machine

/-- The interactions of R252 that change the state. A read of the status port changes nothing (R35). -/
inductive HostAction
  /-- The host supplies words, in order, on the command port. -/
  | supply (ws : List Word)
  /-- The bus collaborator settles its replies to the coming writes. -/
  | answer (replies : List BusAnswer)
  /-- The host asserts reset. -/
  | assertReset
deriving DecidableEq, Repr

/-- Words appended to the command stream. -/
def supplyWords (ws : List Word) (s : State) : State := { s with port := s.port ++ ws }

/-- Replies queued behind those already there. -/
def queueAnswers (replies : List BusAnswer) (s : State) : State := { s with answers := s.answers ++ replies }

/-- Reset (70_reset_and_hazards.md R260): every register to its reset value, `FB` unspecified again, `csp` to 0 and
a new command stream. `BUSLOG` keeps its events; the configuration and the bus side are not reached (R262). -/
def resetMachine (s : State) : State :=
  { State.launch s.cfg with
    busLog := s.busLog
    answers := s.answers
    fbEpoch := s.fbEpoch + 1
    draws := s.draws }

/-- The state after an action. -/
def hostAct (a : HostAction) (s : State) : State :=
  match a with
  | .supply ws => supplyWords ws s
  | .answer replies => queueAnswers replies s
  | .assertReset => resetMachine s

/-- The three words a read of the status port returns (R34). -/
structure StatusRead where
  status : BitVec 32
  faultCmdW : Word
  faultPosW : BitVec 32
deriving DecidableEq, Repr

/-- A read of the status port. -/
def readStatus (s : State) : StatusRead := ⟨statusWord s, faultCmdWord s, faultPosWord s⟩

end Sys2Proof.Machine
end

