-- ==== Sys2Proof/Safety.lean ====
section
/-! DEFINITION. The terms statements use about whole runs: the invariant, the agents' moves, the end of a run and its
observation (00_scope.md R5, 60_exceptions.md R252, R253). -/

namespace Sys2Proof.Machine

/-- The bus event is one the machine may send: a setup of the configured bus, or a write to `DEV_ADDR` of one of the
two kinds of transfer, a data transfer carrying exactly `FB_LEN` bytes (43_device.md R190, R192 to R194). -/
def legalEvent (c : Config) (e : BusEvent) : Prop :=
  e = .setup c.busId c.busClkHz c.sdaPin c.sclPin ∨
  (∃ b answer, e = .write c.devAddr (commandTransfer b) answer) ∨
  (∃ d answer, e = .write c.devAddr (dataTransfer d) answer ∧ d.length = c.fbLen)

/-- What holds at reset and is kept by every step and every host action. -/
structure Inv (s : State) : Prop where
  /-- The framebuffer's list keeps its canonical form. -/
  fbSorted : s.fb.wf
  /-- No index outside `0 .. FB_LEN-1` exists (20_memory.md R58). -/
  fbInside : s.fb.below s.cfg.fbLen
  /-- `csp` never passes the end of the stream (10_state.md R22). -/
  cspInside : s.csp ≤ s.port.length
  /-- The value 3 of `BUS_STATUS` is never produced (R28). -/
  busStatusLegal : s.busStatus ≠ 3
  /-- A mirror flag is set only after a command that issued transfers (R24 to R26, R28). -/
  mirrorNeedsTransfer : s.initDone = true ∨ s.powered = true ∨ s.inverted = true → s.busStatus ≠ 0
  /-- Without a fault the fault registers hold their reset values (R31 to R33). -/
  quietFault : s.faulted = false → s.faultCause = 0 ∧ s.faultCmd = 0 ∧ s.faultPos = 0
  /-- With a fault they hold a cause of 60_exceptions.md R233, the word at `csp`, and `csp mod 2^32` (R232). -/
  latchedFault : s.faulted = true →
    (1 ≤ s.faultCause.toNat ∧ s.faultCause.toNat ≤ 5) ∧ s.port[s.csp]? = some s.faultCmd ∧
      s.faultPos = BitVec.ofNat 32 (s.csp % 2 ^ 32)
  /-- Every event on the bus is one the machine may send. -/
  busLegal : ∀ e ∈ s.busLog, legalEvent s.cfg e

/-- One move of the system of R5: a step of the machine, or an action of the host or the bus collaborator. -/
inductive Move (s : State) : State → Prop
  | mfr (t : State) (h : step s = .next t) : Move s t
  | host (a : HostAction) : Move s (hostAct a s)

/-- The states of runs launched with configuration `c`. -/
inductive Reachable (c : Config) : State → Prop
  | launch : Reachable c (State.launch c)
  | move (s t : State) (hs : Reachable c s) (h : Move s t) : Reachable c t

/-- The run has ended: `csp` is the stream's length, and there is no fault (R253). At that place no command is held,
because none has begun. -/
def final (s : State) : Bool := decide (s.csp = s.port.length) && !s.faulted

/-- The final observation (R253): the framebuffer, the status-port words and `BUSLOG`. -/
structure Observation where
  fb : List Byte
  statusPort : StatusRead
  busLog : List BusEvent
deriving DecidableEq, Repr

/-- The observation of a state. -/
def observe (s : State) : Observation := ⟨fbBytes s, readStatus s, s.busLog⟩

/-- The commands that draw: they touch the framebuffer or `PIXOUT` and never the bus (20_memory.md R57). -/
def isDrawing : Instr → Bool
  | .clear => true
  | .setPixel _ _ _ => true
  | .getPixel _ _ => true
  | .drawLine _ _ _ _ _ => true
  | .writeChar _ _ _ => true
  | .writeBigChar _ _ _ => true
  | .writeString _ _ _ => true
  | .writeBigString _ _ _ => true
  | .init => false
  | .invert _ => false
  | .powerOff => false
  | .powerOn => false
  | .flush => false

/-- The reply the write numbered `n` from now receives: the queued one, else the free value. -/
def answerAt (s : State) (n : Nat) : BusAnswer :=
  s.answers.getD n (Config.busOracle (s.draws + (n - s.answers.length)))

/-- The bus side of the state after `n` writes whose events, with any setup event, are `events`. -/
def afterWrites (n : Nat) (events : List BusEvent) (s : State) : State :=
  { s with
    busLog := s.busLog ++ events
    answers := s.answers.drop n
    draws := s.draws + (n - s.answers.length) }

end Sys2Proof.Machine
end

