-- ==== Sys2Proof/Certificates/Slice0/Obligations.lean ====
section
/-! DEFINITION. What is stated for the provers. Each docstring names the rule of spec/ the statement formalises. A
statement about `exec i s` is about the whole effect of the command, its move of `csp` included; in
`{ s with fb := m, csp := .. }` every field not named is unchanged. -/

open Sys2Proof Sys2Proof.Machine

/-! ## Encoding -/

/-- Decoding the words of a well-formed command gives it back, whatever words follow (30_encoding.md R81 to R88). -/
def Obligations.DecodeOfEncode : Prop :=
  ∀ (i : Instr) (rest : List Word), i.wellFormed = true → decode (encode i ++ rest) = .instr i rest

/-- A decoded command is well formed, and the first word it was read from is the one the encoder writes: so
`FAULT_CMD`, which a meaning writes from the command, is the word fetched (60_exceptions.md R232; assumption
log 9). The words it spans are its first word and `ceil(LEN/8)` payload words (R84). -/
def Obligations.DecodedCommandKeepsItsFirstWord : Prop :=
  ∀ (ws : List Word) (i : Instr) (rest : List Word), decode ws = .instr i rest →
    i.wellFormed = true ∧
      ∃ payload, ws = i.firstWord :: (payload ++ rest) ∧ payload.length = (i.chars.length + 7) / 8

/-- 30_encoding.md R86 (with the legal opcodes of R85): every word has one verdict, read from the word alone. -/
def Obligations.DecodingIsTotal : Prop :=
  ∀ w : Word,
    let op := w.toNat / 2 ^ 56
    let legal := (1 ≤ op ∧ op ≤ 8) ∨ (0x10 ≤ op ∧ op ≤ 0x14)
    (¬legal → ∀ ps, decode (w :: ps) = .illegal .opcode w) ∧
    (legal → ∃ o : Op, o.code.toNat = op ∧
      (w &&& o.mustBeZero ≠ 0 → ∀ ps, decode (w :: ps) = .illegal .reservedField w) ∧
      (w &&& o.mustBeZero = 0 → ∀ ps, o.payloadWords w ≤ ps.length →
        decode (w :: ps) = .instr (operandsOf o w ps) (ps.drop (o.payloadWords w))))

/-- 30_encoding.md R83: the must-be-zero masks, the match rule of the opcode table, and the fault of a nonzero bit. -/
def Obligations.MaskAndMatchSelectTheCommand : Prop :=
  ([Op.clear, .setPixel, .getPixel, .drawLine, .writeChar, .writeBigChar, .writeString, .writeBigString, .init,
      .invert, .powerOff, .powerOn, .flush].map Op.mustBeZero =
    [0x00FFFFFFFFFFFFFF, 0x00FFFFFEFFFF0000, 0x00FFFFFFFFFF0000, 0x00FFFFFE00000000, 0x00FF00FFFFFF0000,
      0x00FF00FFFFFF0000, 0x0000FFFFFFFF0000, 0x0000FFFFFFFF0000, 0x00FFFFFFFFFFFFFF, 0x00FFFFFEFFFFFFFF,
      0x00FFFFFFFFFFFFFF, 0x00FFFFFFFFFFFFFF, 0x00FFFFFFFFFFFFFF]) ∧
  (∀ (w : Word) (o : Op), checkWord w = .ok o ↔
    w &&& ((0xFF00000000000000 : Word) ||| o.mustBeZero) = (o.code.setWidth 64 : Word) <<< 56) ∧
  (∀ (s : State) (w : Word) (o : Op), s.faulted = false → s.port[s.csp]? = some w →
    (w >>> 56).setWidth 8 = o.code → w &&& o.mustBeZero ≠ 0 → step s = .next (raiseFault .reservedField w s))

/-- 30_encoding.md R84: the characters of a string command are bytes of its payload words, the low byte first; bytes
past `LEN` and words past the payload do not matter; `csp` moves by `1 + ceil(LEN/8)`. -/
def Obligations.PayloadBytesAreTheCharacters : Prop :=
  ∀ (w : Word) (ps : List Word),
    let len := (w.toNat / 2 ^ 48) % 256
    ((checkWord w = .ok .writeString ∨ checkWord w = .ok .writeBigString) → (len + 7) / 8 ≤ ps.length →
      ∃ (i : Instr) (chars : List Byte),
        (i = .writeString (w.setWidth 8) ((w >>> 8).setWidth 8) chars ∨
          i = .writeBigString (w.setWidth 8) ((w >>> 8).setWidth 8) chars) ∧
        chars.length = len ∧
        (∀ j, j < len → ∃ p, ps[j / 8]? = some p ∧ chars[j]? = some ((p >>> (8 * (j % 8))).setWidth 8)) ∧
        decode (w :: ps) = .instr i (ps.drop ((len + 7) / 8)) ∧
        ∀ s, ∃ t, exec i s = .next t ∧ t.csp = s.csp + (1 + (len + 7) / 8) ∧ t.faulted = s.faulted)

/-- 30_encoding.md R88: the length of a decoded command is told by its first word. -/
def Obligations.FirstWordTellsTheLength : Prop :=
  ∀ (w : Word) (ps : List Word) (i : Instr) (rest : List Word), decode (w :: ps) = .instr i rest →
    (w :: ps).length = commandLength w + rest.length ∧
    (encode i).length = commandLength w ∧
    commandLength w =
      if w.toNat / 2 ^ 56 = 7 ∨ w.toNat / 2 ^ 56 = 8 then 1 + ((w.toNat / 2 ^ 48) % 256 + 7) / 8 else 1

/-- 30_encoding.md R91, row by row: each example line assembles to the words as the spec writes them out, and they
decode to the command they stand for. How a line of text is read, and that a quoted character or a character of a
string is its ASCII code, is assumption log 13. -/
def Obligations.ExampleWordsDecode : Prop :=
  let row (line : String) (ws : List Word) (i : Instr) : Prop :=
    assembleLine line.toList = some ws ∧ decode ws = .instr i []
  row "CLEAR" [0x0100000000000000] .clear ∧
  row "SET_PIXEL 5, 13, 1" [0x0200000100000D05] (.setPixel 5 13 true) ∧
  row "GET_PIXEL 5, 14" [0x0300000000000E05] (.getPixel 5 14) ∧
  row "DRAW_LINE 0, 0, 3, 1, 1" [0x0400000101030000] (.drawLine 0 0 3 1 true) ∧
  row "DRAW_LINE 0, 0, 10, 0, 1" [0x04000001000A0000] (.drawLine 0 0 10 0 true) ∧
  row "DRAW_LINE 0, 63, 127, 0, 1" [0x04000001007F3F00] (.drawLine 0 63 127 0 true) ∧
  row "WRITE_CHAR 8, 8, '0'" [0x0500300000000808] (.writeChar 8 8 0x30) ∧
  row "WRITE_BIG_CHAR 0, 0, 'A'" [0x0600410000000000] (.writeBigChar 0 0 0x41) ∧
  row "WRITE_STRING 120, 8, \"AB\"" [0x0702000000000878, 0x0000000000004241] (.writeString 120 8 [0x41, 0x42]) ∧
  row "WRITE_STRING 0, 0, \"HELLO WORL\"" [0x070A000000000000, 0x4F57204F4C4C4548, 0x0000000000004C52]
    (.writeString 0 0 [0x48, 0x45, 0x4C, 0x4C, 0x4F, 0x20, 0x57, 0x4F, 0x52, 0x4C]) ∧
  row "WRITE_BIG_STRING 104, 0, \"AB\"" [0x0802000000000068, 0x0000000000004241]
    (.writeBigString 104 0 [0x41, 0x42]) ∧
  row "INIT" [0x1000000000000000] .init ∧
  row "INVERT 1" [0x1100000100000000] (.invert true) ∧
  row "POWER_OFF" [0x1200000000000000] .powerOff ∧
  row "POWER_ON" [0x1300000000000000] .powerOn ∧
  row "FLUSH" [0x1400000000000000] .flush

/-- 30_encoding.md R89, row by row of its table, for operands of any size: a line is refused exactly when an operand
does not fit its field; otherwise its first word is the sum of the row's fields in the places of R81, its payload
words carry the characters (R84) with unused bytes 0, and the words are the encoding of the command and decode to it.
That `.word` refuses a number of more than 64 bits is assumption log 13; the lines of R90 are in
`Obligations.PseudoInstructionsExpand`. -/
def Obligations.AssembledLinesDecode : Prop :=
  let word (op len ch v yb xb ya xa : Nat) : Word :=
    BitVec.ofNat 64 (op * 2 ^ 56 + len * 2 ^ 48 + ch * 2 ^ 40 + v * 2 ^ 32 + yb * 2 ^ 24 + xb * 2 ^ 16 + ya * 2 ^ 8 + xa)
  let byte (n : Nat) : Byte := BitVec.ofNat 8 n
  let row (a : Asm) (fits : Prop) (w : Word) (chars : List Byte) (i : Instr) : Prop :=
    (¬fits → assemble a = none) ∧
    (fits → ∃ payload : List Word,
      assemble a = some (w :: payload) ∧ encode i = w :: payload ∧ decode (w :: payload) = .instr i [] ∧
      payload.length = (chars.length + 7) / 8 ∧
      ∀ (k j : Nat) (p : Word), payload[k]? = some p → j < 8 → (p >>> (8 * j)).setWidth 8 = chars.getD (8 * k + j) 0)
  row .clear True (word 0x01 0 0 0 0 0 0 0) [] .clear ∧
  (∀ x y v, row (.setPixel x y v) (x < 256 ∧ y < 256 ∧ v < 2) (word 0x02 0 0 v 0 0 y x) []
    (.setPixel (byte x) (byte y) (v == 1))) ∧
  (∀ x y, row (.getPixel x y) (x < 256 ∧ y < 256) (word 0x03 0 0 0 0 0 y x) [] (.getPixel (byte x) (byte y))) ∧
  (∀ x0 y0 x1 y1 v, row (.drawLine x0 y0 x1 y1 v) (x0 < 256 ∧ y0 < 256 ∧ x1 < 256 ∧ y1 < 256 ∧ v < 2)
    (word 0x04 0 0 v y1 x1 y0 x0) [] (.drawLine (byte x0) (byte y0) (byte x1) (byte y1) (v == 1))) ∧
  (∀ x y ch, row (.writeChar x y ch) (x < 256 ∧ y < 256 ∧ ch < 256) (word 0x05 0 ch 0 0 0 y x) []
    (.writeChar (byte x) (byte y) (byte ch))) ∧
  (∀ x y ch, row (.writeBigChar x y ch) (x < 256 ∧ y < 256 ∧ ch < 256) (word 0x06 0 ch 0 0 0 y x) []
    (.writeBigChar (byte x) (byte y) (byte ch))) ∧
  (∀ x y chars, row (.writeString x y chars) (x < 256 ∧ y < 256 ∧ chars.length ≤ 255)
    (word 0x07 chars.length 0 0 0 0 y x) chars (.writeString (byte x) (byte y) chars)) ∧
  (∀ x y chars, row (.writeBigString x y chars) (x < 256 ∧ y < 256 ∧ chars.length ≤ 255)
    (word 0x08 chars.length 0 0 0 0 y x) chars (.writeBigString (byte x) (byte y) chars)) ∧
  row .init True (word 0x10 0 0 0 0 0 0 0) [] .init ∧
  (∀ v, row (.invert v) (v < 2) (word 0x11 0 0 v 0 0 0 0) [] (.invert (v == 1))) ∧
  row .powerOff True (word 0x12 0 0 0 0 0 0 0) [] .powerOff ∧
  row .powerOn True (word 0x13 0 0 0 0 0 0 0) [] .powerOn ∧
  row .flush True (word 0x14 0 0 0 0 0 0 0) [] .flush ∧
  (∀ n, assemble (.word n) = if n < 2 ^ 64 then some [BitVec.ofNat 64 n] else none)

/-- 30_encoding.md R90: the pseudo-instructions, and that NOP draws nothing. -/
def Obligations.PseudoInstructionsExpand : Prop :=
  assemble .nop = some [0x0700000000000000] ∧
  (∀ x0 x1 y v, assemble (.hline x0 x1 y v) = assemble (.drawLine x0 y x1 y v)) ∧
  (∀ x y0 y1 v, assemble (.vline x y0 y1 v) = assemble (.drawLine x y0 x y1 v)) ∧
  (∀ x y, assemble (.pixelOn x y) = assemble (.setPixel x y 1)) ∧
  (∀ x y, assemble (.pixelOff x y) = assemble (.setPixel x y 0)) ∧
  assemble .normal = assemble (.invert 0) ∧
  (∀ s, exec (.writeString 0 0 []) s = .next { s with csp := s.csp + 1 })

/-! ## The step, its faults and its stops -/

/-- When the words at `csp` decode to a command, the step is that command's meaning (60_exceptions.md R231). -/
def Obligations.StepRunsTheDecodedCommand : Prop :=
  ∀ (s : State) (i : Instr) (rest : List Word), s.faulted = false → decode (s.port.drop s.csp) = .instr i rest →
    step s = exec i s

/-- When the words at `csp` are the encoding of a well-formed command, the step runs it (60_exceptions.md R231). -/
def Obligations.EncodedCommandRuns : Prop :=
  ∀ (s : State) (before after : List Word) (i : Instr), s.faulted = false → i.wellFormed = true →
    s.port = before ++ encode i ++ after → s.csp = before.length → step s = exec i s

/-- 10_state.md R22 and 30_encoding.md R88: a step keeps the stream and the configuration; it moves `csp` by the
length of the command it ran, or, on a fault, leaves it. -/
def Obligations.StepMovesCspByTheLength : Prop :=
  ∀ s t : State, step s = .next t →
    t.port = s.port ∧ t.cfg = s.cfg ∧
    ((t.faulted = true ∧ t.csp = s.csp) ∨
      (t.faulted = false ∧ ∃ w, s.port[s.csp]? = some w ∧ t.csp = s.csp + commandLength w))

/-- 60_exceptions.md R232: whenever a step leaves `FAULTED` set, the fault entry is all it did, and no further step
is taken until reset. -/
def Obligations.FaultEntryIsAllThatHappens : Prop :=
  ∀ s t : State, step s = .next t → t.faulted = true →
    (∃ (w0 : Word) (cause : FaultCause), s.port[s.csp]? = some w0 ∧
      t = { s with
        faulted := true
        faultCause := cause.code
        faultCmd := w0
        faultPos := BitVec.ofNat 32 (s.csp % 2 ^ 32) }) ∧
    step t = .fault .halted ∧
    (hostAct .assertReset t).faulted = false

/-- 60_exceptions.md R240 (with the codes of R233): the first fault that applies, in this order. -/
def Obligations.FaultPriorityOrder : Prop :=
  ∀ (s : State) (w : Word), s.faulted = false → s.port[s.csp]? = some w →
    let op := w.toNat / 2 ^ 56
    let xa := (w.setWidth 8).toNat
    let ya := ((w >>> 8).setWidth 8).toNat
    let xb := ((w >>> 16).setWidth 8).toNat
    let yb := ((w >>> 24).setWidth 8).toNat
    let takes (code : BitVec 4) := step s = .next { s with
      faulted := true, faultCause := code, faultCmd := w, faultPos := BitVec.ofNat 32 (s.csp % 2 ^ 32) }
    if ¬((1 ≤ op ∧ op ≤ 8) ∨ (0x10 ≤ op ∧ op ≤ 0x14)) then takes 1
    else if (opOf (BitVec.ofNat 8 op)).any (fun o => decide (w &&& o.mustBeZero ≠ 0)) then takes 2
    else if (0x11 ≤ op ∧ op ≤ 0x14) ∧ s.initDone = false then takes 5
    else if (op = 2 ∨ op = 3) ∧ (s.cfg.W ≤ xa ∨ 64 ≤ ya) then takes 3
    else if op = 4 ∧ (s.cfg.W ≤ xa ∨ 64 ≤ ya ∨ s.cfg.W ≤ xb ∨ 64 ≤ yb) then takes 4
    else ∀ t, step s = .next t → t.faulted = false

/-- 60_exceptions.md R248 and R249: the three states in which the machine takes no step, and that in every other state
it takes one. -/
def Obligations.NoStepExactlyWhenHaltedOrHeld : Prop :=
  ∀ s : State,
    (step s = .fault .halted ↔ s.faulted = true) ∧
    (s.faulted = false →
      (step s = .fault .awaitCommand ↔ s.port.length ≤ s.csp) ∧
      (step s = .fault .awaitPayload ↔ ∃ w, s.port[s.csp]? = some w ∧
        (checkWord w = .ok .writeString ∨ checkWord w = .ok .writeBigString) ∧
        s.port.length < s.csp + commandLength w) ∧
      (step s ≠ .fault .awaitCommand → step s ≠ .fault .awaitPayload → ∃ t, step s = .next t))

/-- 60_exceptions.md R242: the system leaves the faulted state by reset alone. -/
def Obligations.OnlyResetLeavesTheFault : Prop :=
  ∀ s t : State, Move s t → s.faulted = true →
    (t.faulted = true ∧ t.faultCause = s.faultCause ∧ t.faultCmd = s.faultCmd ∧ t.faultPos = s.faultPos) ∨
      t = resetMachine s

/-! ## Reset, the invariant, the agents -/

/-- 70_reset_and_hazards.md R260: the state a reset leaves. That `FB` is unspecified is said by listing no byte and by
a new epoch of its free values (assumption log 4). -/
def Obligations.ResetLeavesTheseValues : Prop :=
  (∀ s : State, hostAct .assertReset s =
    { s with
      fb := [], fbEpoch := s.fbEpoch + 1, csp := 0, port := []
      initDone := false, powered := false, inverted := false, busStatus := 0, pixOut := false
      faulted := false, faultCause := 0, faultCmd := 0, faultPos := 0 }) ∧
  State.reset.csp = 0 ∧ State.reset.fb = [] ∧ readStatus State.reset = ⟨0, 0, 0⟩ ∧ State.reset.busLog = []

/-- The invariant holds at the launch of a run with any configuration, and at reset. -/
def Obligations.InvariantHoldsAtLaunch : Prop :=
  (∀ c : Config, Inv (State.launch c)) ∧ Inv State.reset

/-- Every step keeps the invariant: canonical framebuffer list inside `0 .. FB_LEN-1` (20_memory.md R58), `csp` inside
the stream, legal `BUS_STATUS` (10_state.md R28), legal fault registers (R31 to R33), legal bus events
(43_device.md R190). -/
def Obligations.StepKeepsInvariant : Prop :=
  ∀ s t : State, Inv s → step s = .next t → Inv t

/-- Every action of the host and of the bus collaborator keeps the invariant. -/
def Obligations.HostActionsKeepInvariant : Prop :=
  ∀ (a : HostAction) (s : State), Inv s → Inv (hostAct a s)

/-- In every run of the system the invariant holds and the configuration is the launched one (10_state.md R40). -/
def Obligations.ReachableStatesKeepInvariantAndConfiguration : Prop :=
  ∀ (c : Config) (s : State), Reachable c s → Inv s ∧ s.cfg = c

/-- 10_state.md R39 and 20_memory.md R64: a move of the system only appends to `BUSLOG`, and a step appends at most the
28 events of an INIT. -/
def Obligations.BusLogOnlyGrows : Prop :=
  ∀ s t : State, Move s t → ∃ events, t.busLog = s.busLog ++ events ∧ events.length ≤ 28

/-- 60_exceptions.md R253: under the invariant, the run has ended exactly where the machine waits for a command with
no word of one present; a faulted or a held state is not final. -/
def Obligations.FinalStatesAwaitACommand : Prop :=
  ∀ s : State, Inv s → (final s = true ↔ step s = .fault .awaitCommand)

/-- 10_state.md R34: the fields of the three status-port words. -/
def Obligations.StatusPortLayout : Prop :=
  ∀ s : State,
    let w := (readStatus s).status
    w.getLsbD 0 = s.initDone ∧ w.getLsbD 1 = s.powered ∧ w.getLsbD 2 = s.inverted ∧ w.getLsbD 3 = s.faulted ∧
    w.extractLsb' 4 4 = s.faultCause ∧ w.getLsbD 8 = s.pixOut ∧ w.extractLsb' 9 2 = s.busStatus ∧
    w.extractLsb' 11 21 = 0 ∧
    (readStatus s).faultCmdW = s.faultCmd ∧ (readStatus s).faultPosW = s.faultPos

/-! ## Framebuffer and pixels -/

/-- 20_memory.md R51 and R52: pixels and bits correspond one to one, by these formulas. -/
def Obligations.PixelsAndBitsCorrespond : Prop :=
  ∀ c : Config,
    (∀ x y, byteIndex c x y = y / 8 * c.W + x ∧ bitIndex y = y % 8) ∧
    (∀ i b, columnOf c i = i % c.W ∧ rowOf c i b = 8 * (i / c.W) + b) ∧
    (∀ x y, x < c.W → y < 64 → byteIndex c x y < 8 * c.W ∧ bitIndex y < 8 ∧
      columnOf c (byteIndex c x y) = x ∧ rowOf c (byteIndex c x y) (bitIndex y) = y) ∧
    (∀ i b, i < 8 * c.W → b < 8 → columnOf c i < c.W ∧ rowOf c i b < 64 ∧
      byteIndex c (columnOf c i) (rowOf c i b) = i ∧ bitIndex (rowOf c i b) = b)

/-- 40_pixel.md R111: CLEAR zeroes every byte and writes nothing else. -/
def Obligations.ClearZeroesTheFramebuffer : Prop :=
  ∀ s : State, ∃ m : Memory,
    exec .clear s = .next { s with fb := m, csp := s.csp + 1 } ∧
    ∀ i, i < 8 * s.cfg.W → memRead { s with fb := m } i = 0

/-- CLEAR's framebuffer is the one the write loop of 40_pixel.md R111 leaves (assumption log 11). -/
def Obligations.ClearIsTheWriteLoop : Prop :=
  ∀ s : State, s.fb.wf → s.fb.below s.cfg.fbLen →
    exec .clear s =
      .next { (List.range s.cfg.fbLen).foldl (fun t i => memWrite t i 0) s with csp := s.csp + 1 }

/-- 40_pixel.md R112: SET_PIXEL changes one bit of one byte, or faults and changes no byte. -/
def Obligations.SetPixelWritesOneByte : Prop :=
  ∀ (x y : Byte) (on : Bool) (s : State),
    let i := y.toNat / 8 * s.cfg.W + x.toNat
    let b := y.toNat % 8
    (x.toNat < s.cfg.W ∧ y.toNat < 64 → ∃ m : Memory,
      exec (.setPixel x y on) s = .next { s with fb := m, csp := s.csp + 1 } ∧
      memRead { s with fb := m } i =
        (if on then memRead s i ||| (1#8 <<< b) else memRead s i &&& ~~~(1#8 <<< b)) ∧
      ∀ j, j ≠ i → memRead { s with fb := m } j = memRead s j) ∧
    (¬(x.toNat < s.cfg.W ∧ y.toNat < 64) →
      exec (.setPixel x y on) s = .next (raiseFault .pixelRange (Instr.setPixel x y on).firstWord s))

/-- 40_pixel.md R113: the four laws of SET_PIXEL. Commuting and repeating are equalities of whole states. -/
def Obligations.SetPixelLaws : Prop :=
  ∀ (x y x' y' : Byte) (v v' : Bool) (s : State),
    x.toNat < s.cfg.W → y.toNat < 64 → x'.toNat < s.cfg.W → y'.toNat < 64 →
    ∃ t : State, exec (.setPixel x y v) s = .next t ∧
      pixel t x.toNat y.toNat = v ∧
      (∀ i b, b < 8 → ¬(i = byteIndex s.cfg x.toNat y.toNat ∧ b = bitIndex y.toNat) →
        (memRead t i).getLsbD b = (memRead s i).getLsbD b) ∧
      ((x, y) ≠ (x', y') → ∃ u r : State,
        exec (.setPixel x' y' v') t = .next r ∧
        exec (.setPixel x' y' v') s = .next u ∧ exec (.setPixel x y v) u = .next r) ∧
      exec (.setPixel x y v) t = .next { t with csp := t.csp + 1 }

/-- 40_pixel.md R114: GET_PIXEL reads one bit into `PIXOUT`, or faults. -/
def Obligations.GetPixelReadsOneBit : Prop :=
  ∀ (x y : Byte) (s : State),
    (x.toNat < s.cfg.W ∧ y.toNat < 64 →
      exec (.getPixel x y) s = .next
        { s with
          pixOut := ((memRead s (y.toNat / 8 * s.cfg.W + x.toNat) >>> (y.toNat % 8)) &&& 1) = 1
          csp := s.csp + 1 }) ∧
    (¬(x.toNat < s.cfg.W ∧ y.toNat < 64) →
      exec (.getPixel x y) s = .next (raiseFault .pixelRange (Instr.getPixel x y).firstWord s))

/-- 40_pixel.md R115: a pixel set, read, cleared and read; and CLEAR, then any read. -/
def Obligations.ReadsSeeWhatWasDrawn : Prop :=
  ∀ (x y : Byte) (s : State), x.toNat < s.cfg.W → y.toNat < 64 →
    (∃ s1 s2 s3 s4 : State,
      exec (.setPixel x y true) s = .next s1 ∧ exec (.getPixel x y) s1 = .next s2 ∧ s2.pixOut = true ∧
      exec (.setPixel x y false) s2 = .next s3 ∧ exec (.getPixel x y) s3 = .next s4 ∧ s4.pixOut = false) ∧
    (∃ s1 s2 : State, exec .clear s = .next s1 ∧ exec (.getPixel x y) s1 = .next s2 ∧ s2.pixOut = false)

/-! ## Line -/

/-- 41_line.md R132: the points of a line, for every pair of endpoints. -/
def Obligations.LinePointsStayInTheBox : Prop :=
  (∀ x0 y0 x1 y1 : Int,
    (∀ p ∈ linePoints x0 y0 x1 y1,
      min x0 x1 ≤ p.1 ∧ p.1 ≤ max x0 x1 ∧ min y0 y1 ≤ p.2 ∧ p.2 ≤ max y0 y1) ∧
    (linePoints x0 y0 x1 y1).head? = some (x0, y0) ∧
    (linePoints x0 y0 x1 y1).getLast? = some (x1, y1) ∧
    (linePoints x0 y0 x1 y1).length = max (x1 - x0).natAbs (y1 - y0).natAbs + 1 ∧
    (linePoints x0 y0 x1 y1).Nodup ∧
    (linePoints x0 y0 x1 y1).IsChain (fun p q => (q.1 - p.1).natAbs ≤ 1 ∧ (q.2 - p.2).natAbs ≤ 1)) ∧
  (∀ (c : Config) (x0 y0 x1 y1 : Nat), x0 < c.W → y0 < 64 → x1 < c.W → y1 < 64 →
    ∀ p ∈ linePoints x0 y0 x1 y1, 0 ≤ p.1 ∧ 0 ≤ p.2 ∧ p.1.toNat < c.W ∧ p.2.toNat < 64 ∧
      byteIndex c p.1.toNat p.2.toNat < 8 * c.W)

/-- 41_line.md R134 and the loop of R131: the points are those of a sequence of states `(x, y, err)` in which both
tests of an iteration compare the same `e2 = 2 * err`, and which ends at the endpoint and only there. -/
def Obligations.LineFollowsTheErrorRule : Prop :=
  (∀ x0 y0 x1 y1 : Int,
    let dx : Int := |x1 - x0|
    let dy : Int := -|y1 - y0|
    let sx : Int := if x0 < x1 then 1 else -1
    let sy : Int := if y0 < y1 then 1 else -1
    ∃ states : List (Int × Int × Int),
      linePoints x0 y0 x1 y1 = states.map (fun q => (q.1, q.2.1)) ∧
      states.head? = some (x0, y0, dx + dy) ∧
      states.IsChain (fun q r =>
        ¬(q.1 = x1 ∧ q.2.1 = y1) ∧
        r.1 = (if 2 * q.2.2 ≥ dy then q.1 + sx else q.1) ∧
        r.2.1 = (if 2 * q.2.2 ≤ dx then q.2.1 + sy else q.2.1) ∧
        r.2.2 = q.2.2 + (if 2 * q.2.2 ≥ dy then dy else 0) + (if 2 * q.2.2 ≤ dx then dx else 0)) ∧
      ∃ err, states.getLast? = some (x1, y1, err)) ∧
  linePoints 0 0 3 1 = [(0, 0), (1, 0), (2, 1), (3, 1)]

/-- 41_line.md R131 and R135: DRAW_LINE sets or clears the pixels of its points and no other, or faults and plots
nothing. -/
def Obligations.DrawLinePlotsItsPoints : Prop :=
  ∀ (x0 y0 x1 y1 : Byte) (on : Bool) (s : State),
    let inside := x0.toNat < s.cfg.W ∧ y0.toNat < 64 ∧ x1.toNat < s.cfg.W ∧ y1.toNat < 64
    (inside → ∃ m : Memory,
      exec (.drawLine x0 y0 x1 y1 on) s = .next { s with fb := m, csp := s.csp + 1 } ∧
      (∀ px py : Nat, px < s.cfg.W → py < 64 →
        pixel { s with fb := m } px py =
          if ((px : Int), (py : Int)) ∈ linePoints x0.toNat y0.toNat x1.toNat y1.toNat then on
          else pixel s px py) ∧
      (∀ j, (∀ p ∈ linePoints x0.toNat y0.toNat x1.toNat y1.toNat, j ≠ byteIndex s.cfg p.1.toNat p.2.toNat) →
        memRead { s with fb := m } j = memRead s j)) ∧
    (¬inside →
      exec (.drawLine x0 y0 x1 y1 on) s = .next (raiseFault .lineRange (Instr.drawLine x0 y0 x1 y1 on).firstWord s))

/-- 41_line.md R137: a line of one point is SET_PIXEL of it, with `LINE_RANGE` in place of `PIXEL_RANGE`. -/
def Obligations.DegenerateLineIsSetPixel : Prop :=
  ∀ (x y : Byte) (on : Bool) (s : State),
    linePoints x.toNat y.toNat x.toNat y.toNat = [((x.toNat : Int), (y.toNat : Int))] ∧
    (x.toNat < s.cfg.W ∧ y.toNat < 64 → ∃ t : State,
      exec (.drawLine x y x y on) s = .next t ∧ exec (.setPixel x y on) s = .next t) ∧
    (¬(x.toNat < s.cfg.W ∧ y.toNat < 64) →
      exec (.drawLine x y x y on) s = .next (raiseFault .lineRange (Instr.drawLine x y x y on).firstWord s) ∧
      exec (.setPixel x y on) s = .next (raiseFault .pixelRange (Instr.setPixel x y on).firstWord s))

/-- 41_line.md R133: the step sign of a coordinate whose difference is 0 does not matter, because that coordinate never
advances. -/
def Obligations.StepSignOfAZeroDifferenceIsIrrelevant : Prop :=
  (∀ (x y0 y1 sx sx' : Int) (fuel : Nat),
    lineLoop x y1 0 (-|y1 - y0|) sx (stepSign y0 y1) fuel x y0 (-|y1 - y0|) =
      lineLoop x y1 0 (-|y1 - y0|) sx' (stepSign y0 y1) fuel x y0 (-|y1 - y0|) ∧
    ∀ p ∈ lineLoop x y1 0 (-|y1 - y0|) sx (stepSign y0 y1) fuel x y0 (-|y1 - y0|), p.1 = x) ∧
  (∀ (x0 x1 y sy sy' : Int) (fuel : Nat),
    lineLoop x1 y |x1 - x0| 0 (stepSign x0 x1) sy fuel x0 y |x1 - x0| =
      lineLoop x1 y |x1 - x0| 0 (stepSign x0 x1) sy' fuel x0 y |x1 - x0| ∧
    ∀ p ∈ lineLoop x1 y |x1 - x0| 0 (stepSign x0 x1) sy fuel x0 y |x1 - x0|, p.2 = y) ∧
  (∀ x y : Int, linePoints x y x y = [(x, y)])

/-- 41_line.md R136: DRAW_LINE is not symmetric in its endpoints. -/
def Obligations.LineIsNotSymmetric : Prop :=
  linePoints 0 0 2 1 = [(0, 0), (1, 1), (2, 1)] ∧
  linePoints 2 1 0 0 = [(2, 1), (1, 0), (0, 0)]

/-- 41_line.md R138: the four laws of the source. -/
def Obligations.LineLawsOfTheSource : Prop :=
  linePoints 0 0 10 0 = (List.range 11).map (fun k : Nat => ((k : Int), (0 : Int))) ∧
  linePoints 0 0 0 10 = (List.range 11).map (fun k : Nat => ((0 : Int), (k : Int))) ∧
  linePoints 0 0 5 5 = (List.range 6).map (fun k : Nat => ((k : Int), (k : Int))) ∧
  (∀ x y : Int, (linePoints x y x y).length = 1)

/-! ## Glyphs and strings -/

/-- 42_glyph.md R151 and R160: reversing and doubling the bits of a byte. -/
def Obligations.ReverseAndDoubleBits : Prop :=
  (∀ (b : Byte) (k : Nat), k < 8 → (reverse8 b).getLsbD k = b.getLsbD (7 - k)) ∧
  (∀ b : Byte, reverse8 (reverse8 b) = b) ∧
  reverse8 0x01 = 0x80 ∧ reverse8 0x0F = 0xF0 ∧ reverse8 0x12 = 0x48 ∧ reverse8 0x5A = 0x5A ∧
  (∀ (g : Byte) (k : Nat), k < 8 →
    (double16 g).getLsbD (2 * k) = g.getLsbD k ∧ (double16 g).getLsbD (2 * k + 1) = g.getLsbD k) ∧
  (∀ g : Byte, (double16 g).toNat = ((List.range 8).map fun k => if g.getLsbD k then 3 * 2 ^ (2 * k) else 0).sum) ∧
  double16 0x00 = 0x0000 ∧ double16 0x01 = 0x0003 ∧ double16 0x80 = 0xC000 ∧ double16 0x0F = 0x00FF ∧
  double16 0xF0 = 0xFF00 ∧ double16 0x5A = 0x33CC ∧ double16 0xFF = 0xFFFF

/-- 42_glyph.md R153: the glyph index of every character code. That the codes are ASCII is PRESUMED (assumption
log 17). -/
def Obligations.GlyphIndexOfEveryCode : Prop :=
  ∀ ch : Byte,
    (0x41 ≤ ch.toNat ∧ ch.toNat ≤ 0x5A → glyphIndex ch = ch.toNat - 0x40) ∧
    (0x61 ≤ ch.toNat ∧ ch.toNat ≤ 0x7A → glyphIndex ch = ch.toNat - 0x60) ∧
    (0x30 ≤ ch.toNat ∧ ch.toNat ≤ 0x39 → glyphIndex ch = ch.toNat - 0x30 + 27) ∧
    (¬(0x41 ≤ ch.toNat ∧ ch.toNat ≤ 0x5A) → ¬(0x61 ≤ ch.toNat ∧ ch.toNat ≤ 0x7A) →
      ¬(0x30 ≤ ch.toNat ∧ ch.toNat ≤ 0x39) → glyphIndex ch = 0)

/-- 42_glyph.md R155 (with the font of R150 and 00_scope.md R9, the glyph bytes of R152 and the clip of R154): what
`FONT_ROM` holds; and WRITE_CHAR overwrites eight bytes, or does nothing but move `csp`. A character that is no letter
and no digit clears the eight bytes; that the codes named are the letters and digits is PRESUMED (assumption
log 17). -/
def Obligations.WriteCharDrawsOneGlyph : Prop :=
  (∀ c : Config,
    (∀ k, k < 8 → fontRom c 0 k = 0) ∧
    (∀ (g k : Nat) (hg : g < 36) (hk : k < 8), fontRom c (g + 1) k = c.glyphs[g][k]) ∧
    (∀ g k, glyphByte c g k = reverse8 (fontRom c g k))) ∧
  (∀ (x y ch : Byte) (s : State),
    let at0 := y.toNat / 8 * s.cfg.W + x.toNat
    ((x.toNat > s.cfg.W - 8 ∨ y.toNat > 64 - 8) → exec (.writeChar x y ch) s = .next { s with csp := s.csp + 1 }) ∧
    (¬(x.toNat > s.cfg.W - 8 ∨ y.toNat > 64 - 8) → ∃ m : Memory,
      exec (.writeChar x y ch) s = .next { s with fb := m, csp := s.csp + 1 } ∧
      (∀ c, c < 8 → memRead { s with fb := m } (at0 + c) = reverse8 (fontRom s.cfg (glyphIndex ch) c)) ∧
      (¬(0x41 ≤ ch.toNat ∧ ch.toNat ≤ 0x5A) → ¬(0x61 ≤ ch.toNat ∧ ch.toNat ≤ 0x7A) →
        ¬(0x30 ≤ ch.toNat ∧ ch.toNat ≤ 0x39) → ∀ c, c < 8 → memRead { s with fb := m } (at0 + c) = 0) ∧
      (∀ j, (∀ c, c < 8 → j ≠ at0 + c) → memRead { s with fb := m } j = memRead s j)))

/-- 42_glyph.md R156 and R163: a glyph whose bound passes stays in its page, or its two pages. -/
def Obligations.GlyphsStayInTheirPages : Prop :=
  ∀ (c : Config) (x y : Nat),
    (clip8 c x y = false →
      x + 7 ≤ c.W - 1 ∧ y / 8 ≤ 7 ∧
      ∀ k, k < 8 → y / 8 * c.W ≤ y / 8 * c.W + x + k ∧ y / 8 * c.W + x + k ≤ y / 8 * c.W + c.W - 1 ∧
        y / 8 * c.W + x + k < 8 * c.W) ∧
    (clip16 c x y = false →
      x + 15 ≤ c.W - 1 ∧ y / 8 + 1 ≤ 7 ∧
      ∀ k, k < 16 → y / 8 * c.W + x + k ≤ y / 8 * c.W + c.W - 1 ∧
        (y / 8 + 1) * c.W ≤ (y / 8 + 1) * c.W + x + k ∧ (y / 8 + 1) * c.W + x + k < 8 * c.W)

/-- 42_glyph.md R157: the laws of WRITE_CHAR: what the region holds, independence of what it held and of earlier
commands, repetition, and case folding. That the codes 0x61 to 0x7A are the lower-case letters, each 0x20 above its
upper-case one, is PRESUMED (ASCII, assumption log 17). -/
def Obligations.WriteCharLaws : Prop :=
  ∀ (x y ch : Byte) (s : State), ¬(x.toNat > s.cfg.W - 8 ∨ y.toNat > 64 - 8) →
    ∃ t : State, exec (.writeChar x y ch) s = .next t ∧
      (∀ c k, c < 8 → k < 8 →
        pixel t (x.toNat + c) (8 * (y.toNat / 8) + k) = (glyphByte s.cfg (glyphIndex ch) c).getLsbD k) ∧
      (∀ s' : State, s'.cfg = s.cfg → ∃ t' : State, exec (.writeChar x y ch) s' = .next t' ∧
        ∀ c, c < 8 → memRead t' (y.toNat / 8 * s.cfg.W + x.toNat + c) =
          memRead t (y.toNat / 8 * s.cfg.W + x.toNat + c)) ∧
      exec (.writeChar x y ch) t = .next { t with csp := t.csp + 1 } ∧
      (0x61 ≤ ch.toNat ∧ ch.toNat ≤ 0x7A → exec (.writeChar x y (ch - 0x20)) s = .next t)

/-- 42_glyph.md R162 (with the doubling of R160 and R161): WRITE_BIG_CHAR overwrites 32 bytes, or does nothing but
move `csp`. -/
def Obligations.WriteBigCharDrawsOneGlyph : Prop :=
  ∀ (x y ch : Byte) (s : State),
    let p := y.toNat / 8
    let column (c : Nat) := double16 (reverse8 (fontRom s.cfg (glyphIndex ch) c))
    ((x.toNat > s.cfg.W - 16 ∨ y.toNat > 64 - 16) →
      exec (.writeBigChar x y ch) s = .next { s with csp := s.csp + 1 }) ∧
    (¬(x.toNat > s.cfg.W - 16 ∨ y.toNat > 64 - 16) → ∃ m : Memory,
      exec (.writeBigChar x y ch) s = .next { s with fb := m, csp := s.csp + 1 } ∧
      (∀ c k, c < 8 → k < 2 →
        memRead { s with fb := m } (p * s.cfg.W + x.toNat + 2 * c + k) = (column c).setWidth 8 ∧
        memRead { s with fb := m } ((p + 1) * s.cfg.W + x.toNat + 2 * c + k) = (column c >>> 8).setWidth 8) ∧
      (∀ j, (∀ q, q < 16 → j ≠ p * s.cfg.W + x.toNat + q ∧ j ≠ (p + 1) * s.cfg.W + x.toNat + q) →
        memRead { s with fb := m } j = memRead s j))

/-- 42_glyph.md R164: a double-size glyph, down-sampled at any pixel of its 2×2 blocks, is the normal glyph, wherever
each is drawn. -/
def Obligations.BigGlyphDownSamplesToTheGlyph : Prop :=
  ∀ (x y x' y' ch : Byte) (s s' : State), s'.cfg = s.cfg →
    ¬(x.toNat > s.cfg.W - 16 ∨ y.toNat > 64 - 16) → ¬(x'.toNat > s.cfg.W - 8 ∨ y'.toNat > 64 - 8) →
    ∃ t t' : State, exec (.writeBigChar x y ch) s = .next t ∧ exec (.writeChar x' y' ch) s' = .next t' ∧
      ∀ c k a b, c < 8 → k < 8 → a < 2 → b < 2 →
        pixel t (x.toNat + 2 * c + a) (8 * (y.toNat / 8) + 2 * k + b) =
          (glyphByte s.cfg (glyphIndex ch) c).getLsbD k ∧
        pixel t' (x'.toNat + c) (8 * (y'.toNat / 8) + k) = (glyphByte s.cfg (glyphIndex ch) c).getLsbD k

/-- 42_glyph.md R170 and R171, byte by byte: WRITE_STRING writes, at column `q` of page `y / 8`, the glyph column
`(q - x) % 8` of character `(q - x) / 8` when that character exists and its own clip passes; every other byte is as
before. -/
def Obligations.WriteStringDrawsEachCharacter : Prop :=
  ∀ (x y : Byte) (chars : List Byte) (s : State), ∃ m : Memory,
    exec (.writeString x y chars) s = .next { s with fb := m, csp := s.csp + (1 + (chars.length + 7) / 8) } ∧
    (∀ (j c : Nat) (ch : Byte), chars[j]? = some ch → c < 8 →
      ¬(x.toNat + 8 * j > s.cfg.W - 8 ∨ y.toNat > 64 - 8) →
      memRead { s with fb := m } (y.toNat / 8 * s.cfg.W + (x.toNat + 8 * j) + c) =
        glyphByte s.cfg (glyphIndex ch) c) ∧
    (∀ i, (∀ j c, j < chars.length → c < 8 → ¬(x.toNat + 8 * j > s.cfg.W - 8 ∨ y.toNat > 64 - 8) →
        i ≠ y.toNat / 8 * s.cfg.W + (x.toNat + 8 * j) + c) →
      memRead { s with fb := m } i = memRead s i)

/-- 42_glyph.md R175, byte by byte: as for WRITE_STRING, with glyphs 16 columns wide in two pages and the bound
`clip16`. -/
def Obligations.WriteBigStringDrawsEachCharacter : Prop :=
  ∀ (x y : Byte) (chars : List Byte) (s : State), ∃ m : Memory,
    exec (.writeBigString x y chars) s = .next { s with fb := m, csp := s.csp + (1 + (chars.length + 7) / 8) } ∧
    (∀ (j c k : Nat) (ch : Byte), chars[j]? = some ch → c < 8 → k < 2 →
      ¬(x.toNat + 16 * j > s.cfg.W - 16 ∨ y.toNat > 64 - 16) →
      memRead { s with fb := m } (y.toNat / 8 * s.cfg.W + (x.toNat + 16 * j) + 2 * c + k) =
        (double16 (glyphByte s.cfg (glyphIndex ch) c)).setWidth 8 ∧
      memRead { s with fb := m } ((y.toNat / 8 + 1) * s.cfg.W + (x.toNat + 16 * j) + 2 * c + k) =
        (double16 (glyphByte s.cfg (glyphIndex ch) c) >>> 8).setWidth 8) ∧
    (∀ i, (∀ j q, j < chars.length → q < 16 → ¬(x.toNat + 16 * j > s.cfg.W - 16 ∨ y.toNat > 64 - 16) →
        i ≠ y.toNat / 8 * s.cfg.W + (x.toNat + 16 * j) + q ∧
        i ≠ (y.toNat / 8 + 1) * s.cfg.W + (x.toNat + 16 * j) + q) →
      memRead { s with fb := m } i = memRead s i)

/-- 42_glyph.md R171, and the same of the double-size string of R175: the framebuffer after a string is the one its
characters' own commands leave at `x`, `x + 8`, … (or `x + 16`, …); only `csp` differs. A character whose position
passes the 8-bit coordinate field, so past every edge, has no command of its own and is left out of the run of
commands. -/
def Obligations.StringIsItsCharacterCommands : Prop :=
  let run (width : Nat) (command : Byte → Byte → Instr) (x : Byte) (chars : List Byte) (s : State) :
      Host.Outcome State Fault Refusal :=
    (chars.zipIdx.filter (fun cj => decide (x.toNat + width * cj.2 < 256))).foldl
      (fun o cj => match o with
        | Host.Outcome.next u => exec (command (x + BitVec.ofNat 8 (width * cj.2)) cj.1) u
        | _ => o)
      (Host.Outcome.next s)
  ∀ (x y : Byte) (chars : List Byte) (s : State),
    (∃ t : State, run 8 (fun px ch => .writeChar px y ch) x chars s = .next t ∧
      exec (.writeString x y chars) s = .next { t with csp := s.csp + (1 + (chars.length + 7) / 8) }) ∧
    (∃ t : State, run 16 (fun px ch => .writeBigChar px y ch) x chars s = .next t ∧
      exec (.writeBigString x y chars) s = .next { t with csp := s.csp + (1 + (chars.length + 7) / 8) })

/-- 42_glyph.md R176: a failed origin leaves everything but `csp` as it was. -/
def Obligations.FailedOriginChangesNothing : Prop :=
  ∀ (x y ch : Byte) (chars : List Byte) (s : State),
    ((x.toNat > s.cfg.W - 8 ∨ y.toNat > 64 - 8) →
      exec (.writeChar x y ch) s = .next { s with csp := s.csp + 1 } ∧
      exec (.writeString x y chars) s = .next { s with csp := s.csp + (1 + (chars.length + 7) / 8) }) ∧
    ((x.toNat > s.cfg.W - 16 ∨ y.toNat > 64 - 16) →
      exec (.writeBigChar x y ch) s = .next { s with csp := s.csp + 1 } ∧
      exec (.writeBigString x y chars) s = .next { s with csp := s.csp + (1 + (chars.length + 7) / 8) })

/-! ## Device commands -/

/-- 43_device.md R195: INIT's events and registers, by the replies it receives. How a reply is taken is assumption
log 5. -/
def Obligations.InitSendsTheSequence : Prop :=
  ∀ s : State,
    let setup : BusEvent := .setup s.cfg.busId s.cfg.busClkHz s.cfg.sdaPin s.cfg.sclPin
    let sent (a : BusAnswer) (b : Byte) : BusEvent := .write s.cfg.devAddr [0x00, b] a
    ((∀ n, n < 27 → answerAt s n = .ok) →
      exec .init s = .next
        { afterWrites 27 (setup :: s.cfg.initBytes.toList.map (sent .ok)) s with
          initDone := true, powered := true, inverted := false, busStatus := 1, csp := s.csp + 1 }) ∧
    (∀ n (hn : n < 27), (∀ k, k < n → answerAt s k = .ok) → answerAt s n = .error →
      exec .init s = .next
        { afterWrites (n + 1)
            (setup :: (s.cfg.initBytes.toList.take n).map (sent .ok) ++ [sent .error s.cfg.initBytes[n]]) s with
          initDone := false, busStatus := 2, csp := s.csp + 1 })

/-- 43_device.md R196: the laws of INIT. How a reply is taken is assumption log 5. -/
def Obligations.InitLaws : Prop :=
  (∀ s : State, (∀ n, n < 54 → answerAt s n = .ok) →
    ∃ (t u : State) (events : List BusEvent), exec .init s = .next t ∧ exec .init t = .next u ∧ events.length = 28 ∧
      t.busLog = s.busLog ++ events ∧ u.busLog = t.busLog ++ events) ∧
  (∀ s : State, ∃ t : State, exec .init s = .next t ∧ t.fb = s.fb ∧ t.fbEpoch = s.fbEpoch) ∧
  (∀ (s : State) (a b c : Bool), (∀ n, n < 27 → answerAt s n = .ok) →
    ∃ t : State, exec .init s = .next t ∧
      exec .init { s with initDone := a, powered := b, inverted := c } = .next t)

/-- 43_device.md R198: INVERT. The bytes 0xA6 and 0xA7 are PRESUMED (assumption log 17); how a reply is taken is
assumption log 5. -/
def Obligations.InvertSetsThePolarity : Prop :=
  ∀ (v : Bool) (s : State),
    let sent (a : BusAnswer) : List BusEvent := [.write s.cfg.devAddr [0x00, if v then 0xA7 else 0xA6] a]
    (s.initDone = false →
      exec (.invert v) s = .next (raiseFault .notInitialized (Instr.invert v).firstWord s)) ∧
    (s.initDone = true → answerAt s 0 = .ok → exec (.invert v) s = .next
      { afterWrites 1 (sent .ok) s with inverted := v, busStatus := 1, csp := s.csp + 1 }) ∧
    (s.initDone = true → answerAt s 0 = .error → exec (.invert v) s = .next
      { afterWrites 1 (sent .error) s with busStatus := 2, csp := s.csp + 1 })

/-- 43_device.md R200: POWER_OFF. The byte 0xAE is PRESUMED (assumption log 17); how a reply is taken is assumption
log 5. -/
def Obligations.PowerOffClearsPowered : Prop :=
  ∀ s : State,
    let sent (a : BusAnswer) : List BusEvent := [.write s.cfg.devAddr [0x00, 0xAE] a]
    (s.initDone = false → exec .powerOff s = .next (raiseFault .notInitialized Instr.powerOff.firstWord s)) ∧
    (s.initDone = true → answerAt s 0 = .ok → exec .powerOff s = .next
      { afterWrites 1 (sent .ok) s with powered := false, busStatus := 1, csp := s.csp + 1 }) ∧
    (s.initDone = true → answerAt s 0 = .error → exec .powerOff s = .next
      { afterWrites 1 (sent .error) s with busStatus := 2, csp := s.csp + 1 })

/-- 43_device.md R201: POWER_ON. The byte 0xAF is PRESUMED (assumption log 17); how a reply is taken is assumption
log 5. -/
def Obligations.PowerOnSetsPowered : Prop :=
  ∀ s : State,
    let sent (a : BusAnswer) : List BusEvent := [.write s.cfg.devAddr [0x00, 0xAF] a]
    (s.initDone = false → exec .powerOn s = .next (raiseFault .notInitialized Instr.powerOn.firstWord s)) ∧
    (s.initDone = true → answerAt s 0 = .ok → exec .powerOn s = .next
      { afterWrites 1 (sent .ok) s with powered := true, busStatus := 1, csp := s.csp + 1 }) ∧
    (s.initDone = true → answerAt s 0 = .error → exec .powerOn s = .next
      { afterWrites 1 (sent .error) s with busStatus := 2, csp := s.csp + 1 })

/-- 43_device.md R202 (with the transfer of R194): FLUSH. How a reply is taken is assumption log 5. -/
def Obligations.FlushSendsTheFramebuffer : Prop :=
  ∀ s : State,
    let data := (List.range (8 * s.cfg.W)).map (memRead s)
    let sent (a : BusAnswer) : List BusEvent := [.write s.cfg.devAddr (0x40 :: data) a]
    (s.initDone = false → exec .flush s = .next (raiseFault .notInitialized Instr.flush.firstWord s)) ∧
    (s.initDone = true → answerAt s 0 = .ok → exec .flush s = .next
      { afterWrites 1 (sent .ok) s with busStatus := 1, csp := s.csp + 1 }) ∧
    (s.initDone = true → answerAt s 0 = .error → exec .flush s = .next
      { afterWrites 1 (sent .error) s with busStatus := 2, csp := s.csp + 1 })

/-- 43_device.md R197: a command that receives an error sends nothing after it, sets `BUS_STATUS` to 2, completes, is
no fault, and writes no mirror flag but INIT's `INIT_DONE`. -/
def Obligations.BusErrorsCompleteTheCommand : Prop :=
  ∀ (i : Instr) (s : State), ∃ (t : State) (events : List BusEvent),
    exec i s = .next t ∧ t.busLog = s.busLog ++ events ∧
    ∀ addr bytes, BusEvent.write addr bytes .error ∈ events →
      (∃ before, events = before ++ [.write addr bytes .error] ∧
        ∀ a b, BusEvent.write a b .error ∉ before) ∧
      t.busStatus = 2 ∧ t.csp = s.csp + 1 ∧ t.faulted = s.faulted ∧
      t.powered = s.powered ∧ t.inverted = s.inverted ∧
      t.initDone = if i = .init then false else s.initDone

/-- 43_device.md R203: the laws of FLUSH. `between` is any run of commands that do not draw. That the one-byte
transfers of INVERT, POWER_OFF and POWER_ON are 0xA6, 0xA7, 0xAE and 0xAF is PRESUMED (assumption log 17). -/
def Obligations.FlushLaws : Prop :=
  (∀ (s t : State), exec .flush s = .next t → t.fb = s.fb ∧ t.fbEpoch = s.fbEpoch) ∧
  (∀ (between : List Instr) (s t u : State), s.initDone = true → u.initDone = true →
    (∀ i ∈ between, isDrawing i = false) → exec .flush s = .next t →
    between.foldl (fun o i => match o with
      | Host.Outcome.next r => exec i r
      | _ => o) (Host.Outcome.next t) = .next u →
    ∃ (a b : BusAnswer) (v : State) (bytes : List Byte), exec .flush u = .next v ∧
      t.busLog = s.busLog ++ [.write s.cfg.devAddr bytes a] ∧
      v.busLog = u.busLog ++ [.write s.cfg.devAddr bytes b]) ∧
  (∀ (i : Instr) (s t : State) (addr : Nat) (bytes : List Byte) (a : BusAnswer) (events : List BusEvent),
    exec i s = .next t → t.busLog = s.busLog ++ events → BusEvent.write addr bytes a ∈ events →
    (i = .flush ∧ bytes = 0x40 :: (List.range (8 * s.cfg.W)).map (memRead s)) ∨
    (i ≠ .flush ∧ ∃ b : Byte, bytes = [0x00, b] ∧
      (b ∈ s.cfg.initBytes.toList ∨ b = 0xA6 ∨ b = 0xA7 ∨ b = 0xAE ∨ b = 0xAF)))

/-! ## Rules about all commands -/

/-- 20_memory.md R57 and R55, 10_state.md R36: a drawing command writes at most `FB`, `PIXOUT` and `csp`, or takes its
fault; it emits no bus event and touches no mirror flag. A device command never writes `FB` or `PIXOUT`. -/
def Obligations.DrawingAndDeviceCommandsAreApart : Prop :=
  ∀ (i : Instr) (s t : State), exec i s = .next t →
    (isDrawing i = true →
      t = { s with fb := t.fb, pixOut := t.pixOut, csp := t.csp } ∨
        ∃ cause, (cause = .pixelRange ∨ cause = .lineRange) ∧ t = raiseFault cause i.firstWord s) ∧
    (isDrawing i = false → t.fb = s.fb ∧ t.fbEpoch = s.fbEpoch ∧ t.pixOut = s.pixOut)

/-- 10_state.md R20 to R33 and 60_exceptions.md R232, R236 to R238: which command a register changes by. Either the
command takes a fault of its own, which writes the four fault registers, or it leaves them and moves `csp` by its
length. -/
def Obligations.RegistersAreWrittenOnlyByTheirCommands : Prop :=
  ∀ (i : Instr) (s t : State), exec i s = .next t →
    (t.initDone ≠ s.initDone → i = .init) ∧
    (t.powered ≠ s.powered → i = .init ∨ i = .powerOff ∨ i = .powerOn) ∧
    (t.inverted ≠ s.inverted → i = .init ∨ ∃ v, i = .invert v) ∧
    (t.busStatus ≠ s.busStatus → isDrawing i = false ∧ (t.busStatus = 1 ∨ t.busStatus = 2)) ∧
    (t.pixOut ≠ s.pixOut → ∃ x y, i = .getPixel x y) ∧
    (t.fb ≠ s.fb → isDrawing i = true ∧ ∀ x y, i ≠ .getPixel x y) ∧
    (t.busLog ≠ s.busLog → isDrawing i = false) ∧
    t.port = s.port ∧ t.cfg = s.cfg ∧ t.fbEpoch = s.fbEpoch ∧
    ((∃ cause : FaultCause,
        t = { s with
          faulted := true
          faultCause := cause.code
          faultCmd := i.firstWord
          faultPos := BitVec.ofNat 32 (s.csp % 2 ^ 32) } ∧
        ((cause = .pixelRange ∧ ((∃ x y v, i = .setPixel x y v) ∨ ∃ x y, i = .getPixel x y)) ∨
          (cause = .lineRange ∧ ∃ x0 y0 x1 y1 v, i = .drawLine x0 y0 x1 y1 v) ∨
          (cause = .notInitialized ∧ s.initDone = false ∧
            ((∃ v, i = .invert v) ∨ i = .powerOff ∨ i = .powerOn ∨ i = .flush)))) ∨
      (t.faulted = s.faulted ∧ t.faultCause = s.faultCause ∧ t.faultCmd = s.faultCmd ∧ t.faultPos = s.faultPos ∧
        t.csp = s.csp + (encode i).length))

/-- 10_state.md R25, R26 and 43_device.md R199: no command reads `POWERED` or `INVERTED`. A command either writes a
constant into one of the two (INIT after 27 replies `ok`: 1 and 0; INVERT, POWER_OFF and POWER_ON after a reply `ok`:
`v`, 0 and 1) or leaves it as it was, whatever both held; and everything else of the next state is the same, the bytes
a FLUSH sends included. How a reply is taken is assumption log 5. -/
def Obligations.NoCommandReadsPowerOrPolarity : Prop :=
  ∀ (i : Instr) (s : State) (p v : Bool),
    let initOk : Bool := (List.range 27).all fun n => decide (answerAt s n = .ok)
    let sentOk : Bool := decide (s.initDone = true ∧ answerAt s 0 = .ok)
    let powerWritten : Option Bool := match i with
      | .init => if initOk then some true else none
      | .powerOff => if sentOk then some false else none
      | .powerOn => if sentOk then some true else none
      | _ => none
    let polarityWritten : Option Bool := match i with
      | .init => if initOk then some false else none
      | .invert w => if sentOk then some w else none
      | _ => none
    ∃ t : State,
      exec i s = .next t ∧
      t.powered = powerWritten.getD s.powered ∧ t.inverted = polarityWritten.getD s.inverted ∧
      exec i { s with powered := p, inverted := v } =
        .next { t with powered := powerWritten.getD p, inverted := polarityWritten.getD v }
end

