-- ==== Sys2Proof/Laws/Bits.lean ====
section
/-! SUPPORT. The bit-field operations, bit by bit: one lemma for each. -/

namespace Sys2Proof

@[simp] theorem fieldOP_formatC (op len ch : Byte) (v : Bool) (yb xb ya xa : Byte) :
    fieldOP (formatC op len ch v yb xb ya xa) = op := by
  ext i hi
  simp only [fieldOP, formatC, BitVec.getElem_extractLsb', BitVec.getLsbD_append]
  interval_cases i <;> simp

@[simp] theorem fieldLEN_formatC (op len ch : Byte) (v : Bool) (yb xb ya xa : Byte) :
    fieldLEN (formatC op len ch v yb xb ya xa) = len := by
  ext i hi
  simp only [fieldLEN, formatC, BitVec.getElem_extractLsb', BitVec.getLsbD_append]
  interval_cases i <;> simp

@[simp] theorem fieldCH_formatC (op len ch : Byte) (v : Bool) (yb xb ya xa : Byte) :
    fieldCH (formatC op len ch v yb xb ya xa) = ch := by
  ext i hi
  simp only [fieldCH, formatC, BitVec.getElem_extractLsb', BitVec.getLsbD_append]
  interval_cases i <;> simp

@[simp] theorem fieldV_formatC (op len ch : Byte) (v : Bool) (yb xb ya xa : Byte) :
    fieldV (formatC op len ch v yb xb ya xa) = v := by
  simp only [fieldV, formatC, BitVec.getLsbD_append]
  simp

@[simp] theorem fieldYB_formatC (op len ch : Byte) (v : Bool) (yb xb ya xa : Byte) :
    fieldYB (formatC op len ch v yb xb ya xa) = yb := by
  ext i hi
  simp only [fieldYB, formatC, BitVec.getElem_extractLsb', BitVec.getLsbD_append]
  interval_cases i <;> simp

@[simp] theorem fieldXB_formatC (op len ch : Byte) (v : Bool) (yb xb ya xa : Byte) :
    fieldXB (formatC op len ch v yb xb ya xa) = xb := by
  ext i hi
  simp only [fieldXB, formatC, BitVec.getElem_extractLsb', BitVec.getLsbD_append]
  interval_cases i <;> simp

@[simp] theorem fieldYA_formatC (op len ch : Byte) (v : Bool) (yb xb ya xa : Byte) :
    fieldYA (formatC op len ch v yb xb ya xa) = ya := by
  ext i hi
  simp only [fieldYA, formatC, BitVec.getElem_extractLsb', BitVec.getLsbD_append]
  interval_cases i <;> simp

@[simp] theorem fieldXA_formatC (op len ch : Byte) (v : Bool) (yb xb ya xa : Byte) :
    fieldXA (formatC op len ch v yb xb ya xa) = xa := by
  ext i hi
  simp only [fieldXA, formatC, BitVec.getElem_extractLsb', BitVec.getLsbD_append]
  interval_cases i <;> simp

/-- A bit of a command word is a bit of one of its fields, or a reserved bit. -/
theorem formatC_bit (op len ch : Byte) (v : Bool) (yb xb ya xa : Byte) (i : Nat) :
    (formatC op len ch v yb xb ya xa).getLsbD i =
      if i < 8 then xa.getLsbD i
      else if i < 16 then ya.getLsbD (i - 8)
      else if i < 24 then xb.getLsbD (i - 16)
      else if i < 32 then yb.getLsbD (i - 24)
      else if i < 33 then v
      else if i < 40 then false
      else if i < 48 then ch.getLsbD (i - 40)
      else if i < 56 then len.getLsbD (i - 48)
      else op.getLsbD (i - 56) := by
  by_cases hi : i < 64
  · simp only [formatC, BitVec.getLsbD_append]
    interval_cases i <;> simp
  · rw [BitVec.getLsbD_of_ge _ _ (by omega)]
    split_ifs <;> first | omega | (symm; exact BitVec.getLsbD_of_ge _ _ (by omega))

/-- A word whose reserved bits 39:33 are zero is the packing of its fields. -/
theorem formatC_fields (w : Word) (h : w &&& 0x000000FE00000000 = 0) :
    formatC (fieldOP w) (fieldLEN w) (fieldCH w) (fieldV w) (fieldYB w) (fieldXB w) (fieldYA w) (fieldXA w) = w := by
  apply BitVec.eq_of_getLsbD_eq
  intro i hi
  have hz : (w &&& 0x000000FE00000000).getLsbD i = false := by rw [h]; simp
  rw [BitVec.getLsbD_and] at hz
  rw [formatC_bit]
  simp only [fieldOP, fieldLEN, fieldCH, fieldV, fieldYB, fieldXB, fieldYA, fieldXA, BitVec.getLsbD_extractLsb']
  split_ifs with h1 h2 h3 h4 h5 h6 h7 h8
  · simp [h1]
  · rw [show 8 + (i - 8) = i by omega]; simp; omega
  · rw [show 16 + (i - 16) = i by omega]; simp; omega
  · rw [show 24 + (i - 24) = i by omega]; simp; omega
  · rw [show i = 32 by omega]
  · have : (0x000000FE00000000 : Word).getLsbD i = true := by
      have : 33 ≤ i := by omega
      interval_cases i <;> decide
    rw [this] at hz
    simpa using hz.symm
  · rw [show 40 + (i - 40) = i by omega]; simp; omega
  · rw [show 48 + (i - 48) = i by omega]; simp; omega
  · rw [show 56 + (i - 56) = i by omega]; simp; omega

/-- A payload word holds character `8 k + j` in its byte `j`. -/
theorem payloadWord_byte (chars : List Byte) (k j : Nat) (hj : j < 8) :
    (payloadWord chars k).extractLsb' (8 * j) 8 = chars.getD (8 * k + j) 0 := by
  ext i hi
  simp only [payloadWord, BitVec.getElem_extractLsb', BitVec.getLsbD_append]
  interval_cases j <;> interval_cases i <;> simp

namespace Machine

/-- `withBit` changes bit `b` and no other. -/
theorem withBit_bit (old : Byte) (b k : Nat) (on : Bool) (hb : b < 8) :
    (withBit old b on).getLsbD k = if k = b then on else old.getLsbD k := by
  by_cases hk : k < 8
  · cases on <;> simp only [withBit] <;> interval_cases b <;> interval_cases k <;> simp
  · rw [BitVec.getLsbD_of_ge _ _ (by omega), BitVec.getLsbD_of_ge _ _ (by omega), if_neg (by omega)]

/-- `reverse8(b)[k] = b[7 - k]`. -/
theorem reverse8_bit (b : Byte) (k : Nat) (hk : k < 8) : (reverse8 b).getLsbD k = b.getLsbD (7 - k) := by
  simp only [reverse8, BitVec.getLsbD_append]
  interval_cases k <;> simp

/-- `double16(g)[k] = g[k / 2]`. -/
theorem double16_bit (g : Byte) (k : Nat) (hk : k < 16) : (double16 g).getLsbD k = g.getLsbD (k / 2) := by
  simp only [double16, doubledBit, BitVec.getLsbD_append]
  interval_cases k <;> simp

theorem inRange_iff (c : Config) (x y : Nat) : inRange c x y = true ↔ x < c.W ∧ y < 64 := by
  rw [inRange, Bool.and_eq_true, decide_eq_true_eq, decide_eq_true_eq, Config.H]

theorem clip8_iff (c : Config) (x y : Nat) : clip8 c x y = true ↔ x > c.W - 8 ∨ y > 56 := by
  rw [clip8, Bool.or_eq_true, decide_eq_true_eq, decide_eq_true_eq, Config.H]

theorem clip16_iff (c : Config) (x y : Nat) : clip16 c x y = true ↔ x > c.W - 16 ∨ y > 48 := by
  rw [clip16, Bool.or_eq_true, decide_eq_true_eq, decide_eq_true_eq, Config.H]

@[simp] theorem fontRom_zero (c : Config) (col : Nat) : fontRom c 0 col = 0 := rfl

/-- Glyph `g + 1` is the configuration's. -/
theorem fontRom_succ (c : Config) {g col : Nat} (hg : g < 36) (hcol : col < 8) :
    fontRom c (g + 1) col = c.glyphs[g][col] := by
  simp [fontRom, hg, hcol]

@[simp] theorem glyphByte_zero (c : Config) (col : Nat) : glyphByte c 0 col = 0 := by
  rw [glyphByte, fontRom_zero]
  rfl

/-- No character has an index past 36. -/
theorem glyphIndex_le (ch : Byte) : glyphIndex ch ≤ 36 := by
  simp only [glyphIndex]
  split_ifs <;> omega

end Machine

theorem Config.W_ge (c : Config) : 16 ≤ c.W := by simp [Config.W]

theorem Config.W_le (c : Config) : c.W ≤ 256 := by
  have := c.extraColumns.isLt
  simp only [Config.W]
  omega

theorem Config.fbLen_eq (c : Config) : c.fbLen = 8 * c.W := by
  simp only [Config.fbLen, Config.H]
  omega

end Sys2Proof
end

