-- ==== Sys2Proof/Laws/Decode.lean ====
section
/-! SUPPORT. What the functions of the decoder and the encoder can answer. -/

namespace Sys2Proof

/-- The opcode an OP field names. -/
theorem opOf_iff : ∀ b : Byte, ∀ o : Op, opOf b = some o ↔ o.code = b := by
  intro b o
  constructor
  · have : ∀ b : Byte, (opOf b).all (fun o => o.code == b) = true := by decide
    intro h
    have := this b
    rw [h] at this; simpa using this
  · rintro rfl; cases o <;> rfl

/-- The reserved OP fields (30_encoding.md R85). -/
theorem opOf_none : ∀ b : Byte, opOf b = none ↔ ¬((1 ≤ b.toNat ∧ b.toNat ≤ 8) ∨ (0x10 ≤ b.toNat ∧ b.toNat ≤ 0x14)) := by decide

/-- A word is legal for an opcode exactly when its OP field is that opcode's and its must-be-zero bits are zero. -/
theorem checkWord_ok (w : Word) (o : Op) : checkWord w = .ok o ↔ fieldOP w = o.code ∧ w &&& o.mustBeZero = 0 := by
  unfold checkWord
  cases h : opOf (fieldOP w) with
  | none => 
    simp
    intro h2; rw [(opOf_iff _ o).mpr h2.symm] at h; cases h
  | some o' =>
    have h1 := (opOf_iff _ _).mp h
    constructor
    · intro h2
      simp only at h2
      split at h2
      · cases h2; exact ⟨h1.symm, by assumption⟩
      · cases h2
    · rintro ⟨h2, h3⟩
      have : o' = o := by
        have := (opOf_iff _ o).mpr h2.symm
        rw [h] at this; cases this; rfl
      subst this
      simp [h3]

/-- A word of format C has no bit in common with a mask it avoids. -/
theorem formatC_and_eq_zero (op len ch : Byte) (v : Bool) (yb xb ya xa : Byte) (m : Word)
   (h : ∀ i, i < 64 → (formatC op len ch v yb xb ya xa).getLsbD i = false ∨ m.getLsbD i = false) :
   formatC op len ch v yb xb ya xa &&& m = 0 := by
  apply BitVec.eq_of_getLsbD_eq
  intro i hi
  rw [BitVec.getLsbD_and]
  rcases h i hi with h | h <;> simp [h]

/-- The opcode of a command. -/
def Instr.op : Instr → Op
  | .clear => .clear
  | .setPixel _ _ _ => .setPixel
  | .getPixel _ _ => .getPixel
  | .drawLine _ _ _ _ _ => .drawLine
  | .writeChar _ _ _ => .writeChar
  | .writeBigChar _ _ _ => .writeBigChar
  | .writeString _ _ _ => .writeString
  | .writeBigString _ _ _ => .writeBigString
  | .init => .init
  | .invert _ => .invert
  | .powerOff => .powerOff
  | .powerOn => .powerOn
  | .flush => .flush

/-- The encoder's first word is legal. -/
theorem checkWord_firstWord (i : Instr) : checkWord i.firstWord = .ok (Instr.op i) := by
  rw [checkWord_ok]
  constructor
  · cases i <;> simp [Instr.firstWord, Instr.op, Op.code]
  · cases i <;> simp only [Instr.firstWord, Instr.op, Op.mustBeZero] <;> 
    · apply formatC_and_eq_zero
      intro i hi
      rw [formatC_bit]
      interval_cases i <;> simp

/-- Payload words hold the characters they were made of. -/
theorem payloadChars_payloadOf (chars : List Byte) (rest : List Word) :
    payloadChars chars.length (payloadOf chars ++ rest) = chars := by
  apply List.ext_getElem
  · simp [payloadChars]
  · intro j h1 h2
    simp only [payloadChars, List.getElem_map, List.getElem_range, charAt]
    have hj : j / 8 < (payloadOf chars).length := by simp [payloadOf, ceil8]; omega
    rw [List.getD_eq_getElem?_getD, List.getElem?_append_left hj]
    simp only [payloadOf, List.getElem?_map]
    rw [List.getElem?_range (by simp [payloadOf] at hj; exact hj)]
    simp only [Option.map_some, Option.getD_some]
    rw [payloadWord_byte _ _ _ (Nat.mod_lt _ (by omega))]
    rw [Nat.div_add_mod]
    simp [List.getD_eq_getElem?_getD, h2]

/-- OP as a number. -/
theorem fieldOP_toNat (w : Word) : (fieldOP w).toNat = w.toNat / 2^56 := by
  simp [fieldOP, BitVec.extractLsb'_toNat]
  rw [Nat.shiftRight_eq_div_pow]; have := w.isLt; omega

/-- LEN as a number. -/
theorem fieldLEN_toNat (w : Word) : (fieldLEN w).toNat = w.toNat / 2^48 % 256 := by
  simp [fieldLEN, BitVec.extractLsb'_toNat]
  rw [Nat.shiftRight_eq_div_pow]

/-- `n` characters are read. -/
theorem length_payloadChars (n : Nat) (ps : List Word) : (payloadChars n ps).length = n := by simp [payloadChars]

/-- Everything decoding to a command can have read. -/
theorem decode_instr {ws : List Word} {i rest} (h : decode ws = .instr i rest) :
   ∃ w ps o, ws = w :: ps ∧ checkWord w = .ok o ∧ o.payloadWords w ≤ ps.length ∧ i = operandsOf o w ps ∧ rest = ps.drop (o.payloadWords w) := by
  cases ws with
  | nil => simp [decode] at h
  | cons w ps =>
    simp only [decode] at h
    cases hc : checkWord w with
    | error e => simp [hc] at h
    | ok o =>
      simp only [hc] at h
      split at h
      · cases h
      · next hl => cases h; exact ⟨w, ps, o, rfl, hc, by omega, rfl, rfl⟩

/-- A legal word's length and its payload. -/
theorem payloadWords_commandLength {w : Word} {o : Op} (h : checkWord w = .ok o) : commandLength w = 1 + o.payloadWords w := by
  obtain ⟨h1, _⟩ := (checkWord_ok _ _).mp h
  unfold commandLength
  rw [h1]
  cases o <;> simp [Op.code, Op.payloadWords]

end Sys2Proof
end

