-- ==== Sys2Proof/Laws/Assembler.lean ====
section
/-! SUPPORT. What the assembler's operand checks can answer, and the command word of operands that fit. -/

namespace Sys2Proof

/-- A command word is the sum of its fields, each in its place. -/
theorem formatC_ofNat {op len ch v yb xb ya xa : Nat} (_ : op < 256) (hlen : len < 256) (hch : ch < 256) (hv : v < 2)
    (hyb : yb < 256) (hxb : xb < 256) (hya : ya < 256) (hxa : xa < 256) :
    formatC (BitVec.ofNat 8 op) (BitVec.ofNat 8 len) (BitVec.ofNat 8 ch) (v == 1) (BitVec.ofNat 8 yb)
        (BitVec.ofNat 8 xb) (BitVec.ofNat 8 ya) (BitVec.ofNat 8 xa) =
      BitVec.ofNat 64 (op * 2 ^ 56 + len * 2 ^ 48 + ch * 2 ^ 40 + v * 2 ^ 32 + yb * 2 ^ 24 + xb * 2 ^ 16 +
        ya * 2 ^ 8 + xa) := by
  have hbit : (BitVec.ofBool (v == 1)).toNat = v := by interval_cases v <;> rfl
  have happ : ∀ {n m} (a : BitVec n) (b : BitVec m), (a ++ b).toNat = a.toNat * 2 ^ m + b.toNat := fun {n m} a b => by
    rw [BitVec.toNat_append, Nat.shiftLeft_eq, Nat.mul_comm, ← Nat.two_pow_add_eq_or_of_lt b.isLt, Nat.mul_comm]
  apply BitVec.eq_of_toNat_eq
  simp only [formatC, happ, hbit, BitVec.toNat_ofNat]
  omega

namespace Machine

@[simp] theorem byteOperand_eq_none_iff (n : Nat) : byteOperand n = none ↔ ¬n < 256 := by simp [byteOperand]

theorem byteOperand_of_lt {n : Nat} (h : n < 256) : byteOperand n = some (BitVec.ofNat 8 n) := if_pos h

theorem bitOperand_of_lt {n : Nat} (h : n < 2) : bitOperand n = some (n == 1) := by interval_cases n <;> rfl

theorem bitOperand_of_ge {n : Nat} (h : ¬n < 2) : bitOperand n = none :=
  match n, h with
  | 0, h => absurd (by omega) h
  | 1, h => absurd (by omega) h
  | _ + 2, _ => rfl

theorem stringOperand_of_le {s : List Byte} (h : s.length ≤ 255) : stringOperand s = some s := if_pos h

@[simp] theorem stringOperand_eq_none_iff (s : List Byte) : stringOperand s = none ↔ ¬s.length ≤ 255 := by
  simp [stringOperand]

end Machine

end Sys2Proof
end

