-- ==== Sys2Proof/Laws/Memory.lean ====
section
/-! SUPPORT. The framebuffer's list: reading after writing, and the canonical form, which every operation keeps. -/

namespace Sys2Proof.Machine

@[simp] theorem Memory.read_nil (i : Nat) : Memory.read [] i = none := rfl

theorem Memory.read_cons (j : Nat) (u : Byte) (m : Memory) (i : Nat) :
    Memory.read ((j, u) :: m) i = if i = j then some u else Memory.read m i := rfl

/-- A read of the index just written gives the byte written. -/
@[simp] theorem Memory.read_write_same (m : Memory) (i : Nat) (v : Byte) : (m.write i v).read i = some v := by
  induction m with
  | nil => simp [Memory.write, Memory.read]
  | cons a m ih =>
    obtain ⟨j, u⟩ := a
    simp only [Memory.write]
    split
    · simp [Memory.read]
    · split
      · simp [Memory.read]
      · rw [Memory.read_cons, if_neg (by assumption), ih]

/-- A write leaves every other index alone. -/
theorem Memory.read_write_ne (m : Memory) {i k : Nat} (v : Byte) (h : k ≠ i) :
    (m.write i v).read k = m.read k := by
  induction m with
  | nil => simp [Memory.write, Memory.read, h]
  | cons a m ih =>
    obtain ⟨j, u⟩ := a
    simp only [Memory.write]
    split
    · rw [Memory.read_cons, if_neg h]
    · split
      · rename_i hij
        subst hij
        rw [Memory.read_cons, Memory.read_cons, if_neg h, if_neg h]
      · rw [Memory.read_cons, Memory.read_cons, ih]

theorem Memory.read_write (m : Memory) (i k : Nat) (v : Byte) :
    (m.write i v).read k = if k = i then some v else m.read k := by
  split
  · next h => rw [h, Memory.read_write_same]
  · next h => exact Memory.read_write_ne m v h

/-- The indices listed after a write. -/
theorem Memory.mem_write {m : Memory} {i : Nat} {v : Byte} {a : Host.Cell} (h : a ∈ m.write i v) :
    a = (i, v) ∨ a ∈ m := by
  induction m with
  | nil => simpa [Memory.write] using h
  | cons b m ih =>
    obtain ⟨j, u⟩ := b
    simp only [Memory.write] at h
    split at h
    · simpa using h
    · split at h
      · rcases List.mem_cons.mp h with h | h
        · exact .inl h
        · exact .inr (List.mem_cons_of_mem _ h)
      · rcases List.mem_cons.mp h with h | h
        · exact .inr (h ▸ List.mem_cons_self)
        · rcases ih h with h | h
          · exact .inl h
          · exact .inr (List.mem_cons_of_mem _ h)

/-- A write keeps the canonical form. -/
theorem Memory.wf_write {m : Memory} (h : m.wf) (i : Nat) (v : Byte) : (m.write i v).wf := by
  induction m with
  | nil => simp [Memory.write, Memory.wf]
  | cons b m ih =>
    obtain ⟨j, u⟩ := b
    have hm := List.pairwise_cons.mp h
    simp only [Memory.write]
    split
    · next hij =>
      refine List.pairwise_cons.mpr ⟨fun a ha => ?_, h⟩
      rcases List.mem_cons.mp ha with rfl | ha
      · exact hij
      · exact lt_trans hij (hm.1 a ha)
    · split
      · next hij => subst hij; exact List.pairwise_cons.mpr ⟨hm.1, hm.2⟩
      · next hlt hne =>
        refine List.pairwise_cons.mpr ⟨fun a ha => ?_, ih hm.2⟩
        rcases Memory.mem_write ha with rfl | ha
        · simp only; omega
        · exact hm.1 a ha

/-- A write inside the framebuffer keeps every index inside it. -/
theorem Memory.below_write {m : Memory} {n : Nat} (h : m.below n) {i : Nat} (hi : i < n) (v : Byte) :
    (m.write i v).below n := fun a ha => by
  rcases Memory.mem_write ha with rfl | ha
  · exact hi
  · exact h a ha

/-- `zeros` has the canonical form. -/
theorem Memory.wf_zeros (n : Nat) : (Memory.zeros n).wf :=
  List.pairwise_map.mpr (List.pairwise_lt_range.imp id)

theorem Memory.below_zeros (n : Nat) : (Memory.zeros n).below n := fun a ha => by
  obtain ⟨i, hi, rfl⟩ := List.mem_map.mp ha
  exact List.mem_range.mp hi

/-- A listed pair of a canonical memory is what a read gives. -/
theorem Memory.read_eq_some_iff {m : Memory} (h : m.wf) (i : Nat) (v : Byte) :
    m.read i = some v ↔ (i, v) ∈ m := by
  induction m with
  | nil => simp
  | cons b m ih =>
    obtain ⟨j, u⟩ := b
    have hm := List.pairwise_cons.mp h
    rw [Memory.read_cons]
    split
    · next hij =>
      subst hij
      constructor
      · rintro ⟨⟩; exact List.mem_cons_self
      · intro hv
        rcases List.mem_cons.mp hv with hv | hv
        · rw [(Prod.mk.inj hv).2]
        · exact absurd (hm.1 _ hv) (lt_irrefl _)
    · next hij =>
      rw [ih hm.2]
      constructor
      · exact List.mem_cons_of_mem _
      · intro hv
        rcases List.mem_cons.mp hv with hv | hv
        · exact absurd (Prod.mk.inj hv).1 hij
        · exact hv

@[simp] theorem Memory.read_zeros (n i : Nat) : (Memory.zeros n).read i = if i < n then some 0 else none := by
  have hmem : ∀ v : Byte, (i, v) ∈ Memory.zeros n ↔ i < n ∧ v = 0 := fun v => by
    simp only [Memory.zeros, List.mem_map, List.mem_range, Prod.mk.injEq]
    constructor
    · rintro ⟨k, hk, rfl, rfl⟩; exact ⟨hk, rfl⟩
    · rintro ⟨hk, rfl⟩; exact ⟨i, hk, rfl, rfl⟩
  split
  · next h => exact (Memory.read_eq_some_iff (Memory.wf_zeros n) i 0).mpr ((hmem 0).mpr ⟨h, rfl⟩)
  · next h =>
    by_contra hne
    obtain ⟨v, hv⟩ := Option.ne_none_iff_exists'.mp hne
    exact h ((hmem v).mp ((Memory.read_eq_some_iff (Memory.wf_zeros n) i v).mp hv)).1

/-- Canonical memories that read alike are equal data. -/
theorem Memory.ext_read {m m' : Memory} (h : m.wf) (h' : m'.wf) (hr : ∀ i, m.read i = m'.read i) : m = m' := by
  have hperm : m.Perm m' := by
    have hn : m.Nodup := h.imp fun hlt he => by rw [he] at hlt; exact lt_irrefl _ hlt
    have hn' : m'.Nodup := h'.imp fun hlt he => by rw [he] at hlt; exact lt_irrefl _ hlt
    rw [List.perm_ext_iff_of_nodup hn hn']
    rintro ⟨i, v⟩
    rw [← Memory.read_eq_some_iff h, ← Memory.read_eq_some_iff h', hr i]
  refine hperm.eq_of_pairwise ?_ h h'
  intro a b _ _ hab hba
  exact absurd (lt_trans hab hba) (lt_irrefl _)

/-- Writes to two different indices commute. -/
theorem Memory.write_comm (m : Memory) {i j : Nat} (h : i ≠ j) (v w : Byte) :
    (m.write i v).write j w = (m.write j w).write i v := by
  induction m with
  | nil =>
    simp only [Memory.write]
    split_ifs <;> first | rfl | omega
  | cons b m ih =>
    obtain ⟨k, u⟩ := b
    simp only [Memory.write]
    split_ifs <;> simp only [Memory.write] <;> split_ifs <;> first | rfl | omega | simp_all

/-- Of two writes to one index the second remains. -/
@[simp] theorem Memory.write_write_same (m : Memory) (i : Nat) (v w : Byte) :
    (m.write i v).write i w = m.write i w := by
  induction m with
  | nil => simp [Memory.write]
  | cons b m ih =>
    obtain ⟨k, u⟩ := b
    simp only [Memory.write]
    split_ifs <;> simp only [Memory.write] <;> split_ifs <;> first | rfl | omega | simp_all

/-- The framebuffer's list has the canonical form at reset. -/
theorem reset_fb_wf : State.reset.fb.wf := List.Pairwise.nil

end Sys2Proof.Machine
end

