-- ==== Sys2Proof/Laws/State.lean ====
section
/-! SUPPORT. The state after each update, field by field: every lemma is true by definition. -/

namespace Sys2Proof.Machine

/-! ## `memWrite` -/

@[simp] theorem memWrite_cfg (s : State) (i : Nat) (v : Byte) : (memWrite s i v).cfg = s.cfg := rfl
@[simp] theorem memWrite_fb (s : State) (i : Nat) (v : Byte) : (memWrite s i v).fb = s.fb.write i v := rfl
@[simp] theorem memWrite_csp (s : State) (i : Nat) (v : Byte) : (memWrite s i v).csp = s.csp := rfl
@[simp] theorem memWrite_initDone (s : State) (i : Nat) (v : Byte) : (memWrite s i v).initDone = s.initDone := rfl
@[simp] theorem memWrite_powered (s : State) (i : Nat) (v : Byte) : (memWrite s i v).powered = s.powered := rfl
@[simp] theorem memWrite_inverted (s : State) (i : Nat) (v : Byte) : (memWrite s i v).inverted = s.inverted := rfl
@[simp] theorem memWrite_busStatus (s : State) (i : Nat) (v : Byte) : (memWrite s i v).busStatus = s.busStatus := rfl
@[simp] theorem memWrite_pixOut (s : State) (i : Nat) (v : Byte) : (memWrite s i v).pixOut = s.pixOut := rfl
@[simp] theorem memWrite_faulted (s : State) (i : Nat) (v : Byte) : (memWrite s i v).faulted = s.faulted := rfl
@[simp] theorem memWrite_faultCause (s : State) (i : Nat) (v : Byte) : (memWrite s i v).faultCause = s.faultCause := rfl
@[simp] theorem memWrite_faultCmd (s : State) (i : Nat) (v : Byte) : (memWrite s i v).faultCmd = s.faultCmd := rfl
@[simp] theorem memWrite_faultPos (s : State) (i : Nat) (v : Byte) : (memWrite s i v).faultPos = s.faultPos := rfl
@[simp] theorem memWrite_port (s : State) (i : Nat) (v : Byte) : (memWrite s i v).port = s.port := rfl
@[simp] theorem memWrite_busLog (s : State) (i : Nat) (v : Byte) : (memWrite s i v).busLog = s.busLog := rfl
@[simp] theorem memWrite_answers (s : State) (i : Nat) (v : Byte) : (memWrite s i v).answers = s.answers := rfl
@[simp] theorem memWrite_fbEpoch (s : State) (i : Nat) (v : Byte) : (memWrite s i v).fbEpoch = s.fbEpoch := rfl
@[simp] theorem memWrite_draws (s : State) (i : Nat) (v : Byte) : (memWrite s i v).draws = s.draws := rfl

/-! ## `clearFb` -/

@[simp] theorem clearFb_cfg (s : State) : (clearFb s).cfg = s.cfg := rfl
@[simp] theorem clearFb_fb (s : State) : (clearFb s).fb = Memory.zeros s.cfg.fbLen := rfl
@[simp] theorem clearFb_csp (s : State) : (clearFb s).csp = s.csp := rfl
@[simp] theorem clearFb_initDone (s : State) : (clearFb s).initDone = s.initDone := rfl
@[simp] theorem clearFb_powered (s : State) : (clearFb s).powered = s.powered := rfl
@[simp] theorem clearFb_inverted (s : State) : (clearFb s).inverted = s.inverted := rfl
@[simp] theorem clearFb_busStatus (s : State) : (clearFb s).busStatus = s.busStatus := rfl
@[simp] theorem clearFb_pixOut (s : State) : (clearFb s).pixOut = s.pixOut := rfl
@[simp] theorem clearFb_faulted (s : State) : (clearFb s).faulted = s.faulted := rfl
@[simp] theorem clearFb_faultCause (s : State) : (clearFb s).faultCause = s.faultCause := rfl
@[simp] theorem clearFb_faultCmd (s : State) : (clearFb s).faultCmd = s.faultCmd := rfl
@[simp] theorem clearFb_faultPos (s : State) : (clearFb s).faultPos = s.faultPos := rfl
@[simp] theorem clearFb_port (s : State) : (clearFb s).port = s.port := rfl
@[simp] theorem clearFb_busLog (s : State) : (clearFb s).busLog = s.busLog := rfl
@[simp] theorem clearFb_answers (s : State) : (clearFb s).answers = s.answers := rfl
@[simp] theorem clearFb_fbEpoch (s : State) : (clearFb s).fbEpoch = s.fbEpoch := rfl
@[simp] theorem clearFb_draws (s : State) : (clearFb s).draws = s.draws := rfl

/-! ## `advance` -/

@[simp] theorem advance_cfg (n : Nat) (s : State) : (advance n s).cfg = s.cfg := rfl
@[simp] theorem advance_fb (n : Nat) (s : State) : (advance n s).fb = s.fb := rfl
@[simp] theorem advance_csp (n : Nat) (s : State) : (advance n s).csp = s.csp + n := rfl
@[simp] theorem advance_initDone (n : Nat) (s : State) : (advance n s).initDone = s.initDone := rfl
@[simp] theorem advance_powered (n : Nat) (s : State) : (advance n s).powered = s.powered := rfl
@[simp] theorem advance_inverted (n : Nat) (s : State) : (advance n s).inverted = s.inverted := rfl
@[simp] theorem advance_busStatus (n : Nat) (s : State) : (advance n s).busStatus = s.busStatus := rfl
@[simp] theorem advance_pixOut (n : Nat) (s : State) : (advance n s).pixOut = s.pixOut := rfl
@[simp] theorem advance_faulted (n : Nat) (s : State) : (advance n s).faulted = s.faulted := rfl
@[simp] theorem advance_faultCause (n : Nat) (s : State) : (advance n s).faultCause = s.faultCause := rfl
@[simp] theorem advance_faultCmd (n : Nat) (s : State) : (advance n s).faultCmd = s.faultCmd := rfl
@[simp] theorem advance_faultPos (n : Nat) (s : State) : (advance n s).faultPos = s.faultPos := rfl
@[simp] theorem advance_port (n : Nat) (s : State) : (advance n s).port = s.port := rfl
@[simp] theorem advance_busLog (n : Nat) (s : State) : (advance n s).busLog = s.busLog := rfl
@[simp] theorem advance_answers (n : Nat) (s : State) : (advance n s).answers = s.answers := rfl
@[simp] theorem advance_fbEpoch (n : Nat) (s : State) : (advance n s).fbEpoch = s.fbEpoch := rfl
@[simp] theorem advance_draws (n : Nat) (s : State) : (advance n s).draws = s.draws := rfl

/-! ## `raiseFault` -/

@[simp] theorem raiseFault_cfg (c : FaultCause) (w : Word) (s : State) : (raiseFault c w s).cfg = s.cfg := rfl
@[simp] theorem raiseFault_fb (c : FaultCause) (w : Word) (s : State) : (raiseFault c w s).fb = s.fb := rfl
@[simp] theorem raiseFault_csp (c : FaultCause) (w : Word) (s : State) : (raiseFault c w s).csp = s.csp := rfl
@[simp] theorem raiseFault_initDone (c : FaultCause) (w : Word) (s : State) : (raiseFault c w s).initDone = s.initDone := rfl
@[simp] theorem raiseFault_powered (c : FaultCause) (w : Word) (s : State) : (raiseFault c w s).powered = s.powered := rfl
@[simp] theorem raiseFault_inverted (c : FaultCause) (w : Word) (s : State) : (raiseFault c w s).inverted = s.inverted := rfl
@[simp] theorem raiseFault_busStatus (c : FaultCause) (w : Word) (s : State) : (raiseFault c w s).busStatus = s.busStatus := rfl
@[simp] theorem raiseFault_pixOut (c : FaultCause) (w : Word) (s : State) : (raiseFault c w s).pixOut = s.pixOut := rfl
@[simp] theorem raiseFault_faulted (c : FaultCause) (w : Word) (s : State) : (raiseFault c w s).faulted = true := rfl
@[simp] theorem raiseFault_faultCause (c : FaultCause) (w : Word) (s : State) : (raiseFault c w s).faultCause = c.code := rfl
@[simp] theorem raiseFault_faultCmd (c : FaultCause) (w : Word) (s : State) : (raiseFault c w s).faultCmd = w := rfl
@[simp] theorem raiseFault_faultPos (c : FaultCause) (w : Word) (s : State) : (raiseFault c w s).faultPos = BitVec.ofNat 32 (s.csp % 2 ^ 32) := rfl
@[simp] theorem raiseFault_port (c : FaultCause) (w : Word) (s : State) : (raiseFault c w s).port = s.port := rfl
@[simp] theorem raiseFault_busLog (c : FaultCause) (w : Word) (s : State) : (raiseFault c w s).busLog = s.busLog := rfl
@[simp] theorem raiseFault_answers (c : FaultCause) (w : Word) (s : State) : (raiseFault c w s).answers = s.answers := rfl
@[simp] theorem raiseFault_fbEpoch (c : FaultCause) (w : Word) (s : State) : (raiseFault c w s).fbEpoch = s.fbEpoch := rfl
@[simp] theorem raiseFault_draws (c : FaultCause) (w : Word) (s : State) : (raiseFault c w s).draws = s.draws := rfl

/-! ## `busSetup` -/

@[simp] theorem busSetup_cfg (s : State) : (busSetup s).cfg = s.cfg := rfl
@[simp] theorem busSetup_fb (s : State) : (busSetup s).fb = s.fb := rfl
@[simp] theorem busSetup_csp (s : State) : (busSetup s).csp = s.csp := rfl
@[simp] theorem busSetup_initDone (s : State) : (busSetup s).initDone = s.initDone := rfl
@[simp] theorem busSetup_powered (s : State) : (busSetup s).powered = s.powered := rfl
@[simp] theorem busSetup_inverted (s : State) : (busSetup s).inverted = s.inverted := rfl
@[simp] theorem busSetup_busStatus (s : State) : (busSetup s).busStatus = s.busStatus := rfl
@[simp] theorem busSetup_pixOut (s : State) : (busSetup s).pixOut = s.pixOut := rfl
@[simp] theorem busSetup_faulted (s : State) : (busSetup s).faulted = s.faulted := rfl
@[simp] theorem busSetup_faultCause (s : State) : (busSetup s).faultCause = s.faultCause := rfl
@[simp] theorem busSetup_faultCmd (s : State) : (busSetup s).faultCmd = s.faultCmd := rfl
@[simp] theorem busSetup_faultPos (s : State) : (busSetup s).faultPos = s.faultPos := rfl
@[simp] theorem busSetup_port (s : State) : (busSetup s).port = s.port := rfl
@[simp] theorem busSetup_busLog (s : State) : (busSetup s).busLog = s.busLog ++ [.setup s.cfg.busId s.cfg.busClkHz s.cfg.sdaPin s.cfg.sclPin] := rfl
@[simp] theorem busSetup_answers (s : State) : (busSetup s).answers = s.answers := rfl
@[simp] theorem busSetup_fbEpoch (s : State) : (busSetup s).fbEpoch = s.fbEpoch := rfl
@[simp] theorem busSetup_draws (s : State) : (busSetup s).draws = s.draws := rfl

/-! ## `busWrite` -/

@[simp] theorem busWrite_fst (bytes : List Byte) (s : State) : (busWrite bytes s).1 = nextAnswer s := rfl
@[simp] theorem busWrite_cfg (bytes : List Byte) (s : State) : (busWrite bytes s).2.cfg = s.cfg := rfl
@[simp] theorem busWrite_fb (bytes : List Byte) (s : State) : (busWrite bytes s).2.fb = s.fb := rfl
@[simp] theorem busWrite_csp (bytes : List Byte) (s : State) : (busWrite bytes s).2.csp = s.csp := rfl
@[simp] theorem busWrite_initDone (bytes : List Byte) (s : State) : (busWrite bytes s).2.initDone = s.initDone := rfl
@[simp] theorem busWrite_powered (bytes : List Byte) (s : State) : (busWrite bytes s).2.powered = s.powered := rfl
@[simp] theorem busWrite_inverted (bytes : List Byte) (s : State) : (busWrite bytes s).2.inverted = s.inverted := rfl
@[simp] theorem busWrite_busStatus (bytes : List Byte) (s : State) : (busWrite bytes s).2.busStatus = s.busStatus := rfl
@[simp] theorem busWrite_pixOut (bytes : List Byte) (s : State) : (busWrite bytes s).2.pixOut = s.pixOut := rfl
@[simp] theorem busWrite_faulted (bytes : List Byte) (s : State) : (busWrite bytes s).2.faulted = s.faulted := rfl
@[simp] theorem busWrite_faultCause (bytes : List Byte) (s : State) : (busWrite bytes s).2.faultCause = s.faultCause := rfl
@[simp] theorem busWrite_faultCmd (bytes : List Byte) (s : State) : (busWrite bytes s).2.faultCmd = s.faultCmd := rfl
@[simp] theorem busWrite_faultPos (bytes : List Byte) (s : State) : (busWrite bytes s).2.faultPos = s.faultPos := rfl
@[simp] theorem busWrite_port (bytes : List Byte) (s : State) : (busWrite bytes s).2.port = s.port := rfl
@[simp] theorem busWrite_busLog (bytes : List Byte) (s : State) : (busWrite bytes s).2.busLog = s.busLog ++ [.write s.cfg.devAddr bytes (nextAnswer s)] := rfl
@[simp] theorem busWrite_answers (bytes : List Byte) (s : State) : (busWrite bytes s).2.answers = s.answers.tail := rfl
@[simp] theorem busWrite_fbEpoch (bytes : List Byte) (s : State) : (busWrite bytes s).2.fbEpoch = s.fbEpoch := rfl
@[simp] theorem busWrite_draws (bytes : List Byte) (s : State) : (busWrite bytes s).2.draws = if s.answers.isEmpty then s.draws + 1 else s.draws := rfl

/-! ## `supplyWords` -/

@[simp] theorem supplyWords_cfg (ws : List Word) (s : State) : (supplyWords ws s).cfg = s.cfg := rfl
@[simp] theorem supplyWords_fb (ws : List Word) (s : State) : (supplyWords ws s).fb = s.fb := rfl
@[simp] theorem supplyWords_csp (ws : List Word) (s : State) : (supplyWords ws s).csp = s.csp := rfl
@[simp] theorem supplyWords_initDone (ws : List Word) (s : State) : (supplyWords ws s).initDone = s.initDone := rfl
@[simp] theorem supplyWords_powered (ws : List Word) (s : State) : (supplyWords ws s).powered = s.powered := rfl
@[simp] theorem supplyWords_inverted (ws : List Word) (s : State) : (supplyWords ws s).inverted = s.inverted := rfl
@[simp] theorem supplyWords_busStatus (ws : List Word) (s : State) : (supplyWords ws s).busStatus = s.busStatus := rfl
@[simp] theorem supplyWords_pixOut (ws : List Word) (s : State) : (supplyWords ws s).pixOut = s.pixOut := rfl
@[simp] theorem supplyWords_faulted (ws : List Word) (s : State) : (supplyWords ws s).faulted = s.faulted := rfl
@[simp] theorem supplyWords_faultCause (ws : List Word) (s : State) : (supplyWords ws s).faultCause = s.faultCause := rfl
@[simp] theorem supplyWords_faultCmd (ws : List Word) (s : State) : (supplyWords ws s).faultCmd = s.faultCmd := rfl
@[simp] theorem supplyWords_faultPos (ws : List Word) (s : State) : (supplyWords ws s).faultPos = s.faultPos := rfl
@[simp] theorem supplyWords_port (ws : List Word) (s : State) : (supplyWords ws s).port = s.port ++ ws := rfl
@[simp] theorem supplyWords_busLog (ws : List Word) (s : State) : (supplyWords ws s).busLog = s.busLog := rfl
@[simp] theorem supplyWords_answers (ws : List Word) (s : State) : (supplyWords ws s).answers = s.answers := rfl
@[simp] theorem supplyWords_fbEpoch (ws : List Word) (s : State) : (supplyWords ws s).fbEpoch = s.fbEpoch := rfl
@[simp] theorem supplyWords_draws (ws : List Word) (s : State) : (supplyWords ws s).draws = s.draws := rfl

/-! ## `queueAnswers` -/

@[simp] theorem queueAnswers_cfg (as : List BusAnswer) (s : State) : (queueAnswers as s).cfg = s.cfg := rfl
@[simp] theorem queueAnswers_fb (as : List BusAnswer) (s : State) : (queueAnswers as s).fb = s.fb := rfl
@[simp] theorem queueAnswers_csp (as : List BusAnswer) (s : State) : (queueAnswers as s).csp = s.csp := rfl
@[simp] theorem queueAnswers_initDone (as : List BusAnswer) (s : State) : (queueAnswers as s).initDone = s.initDone := rfl
@[simp] theorem queueAnswers_powered (as : List BusAnswer) (s : State) : (queueAnswers as s).powered = s.powered := rfl
@[simp] theorem queueAnswers_inverted (as : List BusAnswer) (s : State) : (queueAnswers as s).inverted = s.inverted := rfl
@[simp] theorem queueAnswers_busStatus (as : List BusAnswer) (s : State) : (queueAnswers as s).busStatus = s.busStatus := rfl
@[simp] theorem queueAnswers_pixOut (as : List BusAnswer) (s : State) : (queueAnswers as s).pixOut = s.pixOut := rfl
@[simp] theorem queueAnswers_faulted (as : List BusAnswer) (s : State) : (queueAnswers as s).faulted = s.faulted := rfl
@[simp] theorem queueAnswers_faultCause (as : List BusAnswer) (s : State) : (queueAnswers as s).faultCause = s.faultCause := rfl
@[simp] theorem queueAnswers_faultCmd (as : List BusAnswer) (s : State) : (queueAnswers as s).faultCmd = s.faultCmd := rfl
@[simp] theorem queueAnswers_faultPos (as : List BusAnswer) (s : State) : (queueAnswers as s).faultPos = s.faultPos := rfl
@[simp] theorem queueAnswers_port (as : List BusAnswer) (s : State) : (queueAnswers as s).port = s.port := rfl
@[simp] theorem queueAnswers_busLog (as : List BusAnswer) (s : State) : (queueAnswers as s).busLog = s.busLog := rfl
@[simp] theorem queueAnswers_answers (as : List BusAnswer) (s : State) : (queueAnswers as s).answers = s.answers ++ as := rfl
@[simp] theorem queueAnswers_fbEpoch (as : List BusAnswer) (s : State) : (queueAnswers as s).fbEpoch = s.fbEpoch := rfl
@[simp] theorem queueAnswers_draws (as : List BusAnswer) (s : State) : (queueAnswers as s).draws = s.draws := rfl

/-! ## `resetMachine` -/

@[simp] theorem resetMachine_cfg (s : State) : (resetMachine s).cfg = s.cfg := rfl
@[simp] theorem resetMachine_fb (s : State) : (resetMachine s).fb = [] := rfl
@[simp] theorem resetMachine_csp (s : State) : (resetMachine s).csp = 0 := rfl
@[simp] theorem resetMachine_initDone (s : State) : (resetMachine s).initDone = false := rfl
@[simp] theorem resetMachine_powered (s : State) : (resetMachine s).powered = false := rfl
@[simp] theorem resetMachine_inverted (s : State) : (resetMachine s).inverted = false := rfl
@[simp] theorem resetMachine_busStatus (s : State) : (resetMachine s).busStatus = 0 := rfl
@[simp] theorem resetMachine_pixOut (s : State) : (resetMachine s).pixOut = false := rfl
@[simp] theorem resetMachine_faulted (s : State) : (resetMachine s).faulted = false := rfl
@[simp] theorem resetMachine_faultCause (s : State) : (resetMachine s).faultCause = 0 := rfl
@[simp] theorem resetMachine_faultCmd (s : State) : (resetMachine s).faultCmd = 0 := rfl
@[simp] theorem resetMachine_faultPos (s : State) : (resetMachine s).faultPos = 0 := rfl
@[simp] theorem resetMachine_port (s : State) : (resetMachine s).port = [] := rfl
@[simp] theorem resetMachine_busLog (s : State) : (resetMachine s).busLog = s.busLog := rfl
@[simp] theorem resetMachine_answers (s : State) : (resetMachine s).answers = s.answers := rfl
@[simp] theorem resetMachine_fbEpoch (s : State) : (resetMachine s).fbEpoch = s.fbEpoch + 1 := rfl
@[simp] theorem resetMachine_draws (s : State) : (resetMachine s).draws = s.draws := rfl

end Sys2Proof.Machine
end

