-- ==== Sys2Proof/Laws/Ops.lean ====
section
/-! SUPPORT. What each shared operation can do, said once: framebuffer writes and loops of them, the bus port, the
prologue. -/

namespace Sys2Proof.Machine

/-! ## Framebuffer -/

@[simp] theorem memRead_memWrite_same (s : State) (i : Nat) (v : Byte) : memRead (memWrite s i v) i = v := by
  simp [memRead]

theorem memRead_memWrite_ne (s : State) {i k : Nat} (v : Byte) (h : k ≠ i) :
    memRead (memWrite s i v) k = memRead s k := by
  simp [memRead, Memory.read_write_ne _ _ h]

theorem memRead_memWrite (s : State) (i k : Nat) (v : Byte) :
    memRead (memWrite s i v) k = if k = i then v else memRead s k := by
  split
  · next h => rw [h, memRead_memWrite_same]
  · next h => exact memRead_memWrite_ne s v h

@[simp] theorem memRead_advance (n : Nat) (s : State) (i : Nat) : memRead (advance n s) i = memRead s i := rfl

theorem memRead_clearFb (s : State) {i : Nat} (h : i < s.cfg.fbLen) : memRead (clearFb s) i = 0 := by
  simp [memRead, h]

/-- `t` is `s` with bytes written at indices of `A` only: no register, no bus event, no other byte, and the list keeps
its canonical form and stays inside the framebuffer. -/
structure DrawsAt (A : Nat → Prop) (s t : State) : Prop where
  onlyFb : t = { s with fb := t.fb }
  elsewhere : ∀ j, ¬A j → memRead t j = memRead s j
  keepsWf : s.fb.wf → t.fb.wf
  keepsBelow : ∀ n, (∀ j, A j → j < n) → s.fb.below n → t.fb.below n

theorem DrawsAt.refl (A : Nat → Prop) (s : State) : DrawsAt A s s :=
  ⟨rfl, fun _ _ => rfl, id, fun _ _ => id⟩

theorem DrawsAt.trans {A B : Nat → Prop} {s t u : State} (h : DrawsAt A s t) (h' : DrawsAt B t u) :
    DrawsAt (fun j => A j ∨ B j) s u := by
  refine ⟨?_, fun j hj => ?_, fun hw => h'.keepsWf (h.keepsWf hw), fun n hn hb => ?_⟩
  · rw [h'.onlyFb, h.onlyFb]
  · rw [h'.elsewhere j (fun hb => hj (.inr hb)), h.elsewhere j (fun ha => hj (.inl ha))]
  · exact h'.keepsBelow n (fun j hj => hn j (.inr hj)) (h.keepsBelow n (fun j hj => hn j (.inl hj)) hb)

theorem DrawsAt.mono {A B : Nat → Prop} {s t : State} (h : DrawsAt A s t) (hAB : ∀ j, A j → B j) : DrawsAt B s t :=
  ⟨h.onlyFb, fun j hj => h.elsewhere j (fun ha => hj (hAB j ha)), h.keepsWf,
    fun n hn => h.keepsBelow n (fun j hj => hn j (hAB j hj))⟩

theorem DrawsAt.cfg {A : Nat → Prop} {s t : State} (h : DrawsAt A s t) : t.cfg = s.cfg := by rw [h.onlyFb]

theorem DrawsAt.fbEpoch {A : Nat → Prop} {s t : State} (h : DrawsAt A s t) : t.fbEpoch = s.fbEpoch := by rw [h.onlyFb]

theorem drawsAt_memWrite (s : State) (i : Nat) (v : Byte) : DrawsAt (· = i) s (memWrite s i v) :=
  ⟨rfl, fun _ hj => memRead_memWrite_ne s v hj, fun hw => Memory.wf_write hw i v,
    fun _ hn hb => Memory.below_write hb (hn i rfl) v⟩

/-- A loop of drawing steps draws at the union of their indices. -/
theorem drawsAt_foldl {α : Type} (A : α → Nat → Prop) (f : State → α → State) (l : List α) (s : State)
    (h : ∀ t a, a ∈ l → t.cfg = s.cfg → DrawsAt (A a) t (f t a)) :
    DrawsAt (fun j => ∃ a ∈ l, A a j) s (l.foldl f s) := by
  induction l generalizing s with
  | nil => exact DrawsAt.refl _ s
  | cons a l ih =>
    have h1 := h s a List.mem_cons_self rfl
    have h2 := ih (f s a) fun t b hb ht => h t b (List.mem_cons_of_mem _ hb) (ht.trans h1.cfg)
    refine (h1.trans h2).mono fun j hj => ?_
    rcases hj with hj | ⟨b, hb, hj⟩
    · exact ⟨a, List.mem_cons_self, hj⟩
    · exact ⟨b, List.mem_cons_of_mem _ hb, hj⟩

/-- After a loop of drawing steps, the byte at `j` is what the last step that draws there left. -/
theorem memRead_foldl_last {α : Type} (A : α → Nat → Prop) (f : State → α → State) (l r : List α) (a : α) (s : State)
    (j : Nat) (v : Byte)
    (h : ∀ t b, b ∈ l ++ a :: r → t.cfg = s.cfg → DrawsAt (A b) t (f t b))
    (hv : ∀ t, t.cfg = s.cfg → memRead (f t a) j = v) (hr : ∀ b ∈ r, ¬A b j) :
    memRead ((l ++ a :: r).foldl f s) j = v := by
  rw [List.foldl_append, List.foldl_cons]
  have hl := drawsAt_foldl A f l s fun t b hb => h t b (List.mem_append_left _ hb)
  have ha := h (l.foldl f s) a (by simp) hl.cfg
  have hrest := drawsAt_foldl A f r (f (l.foldl f s) a) fun t b hb ht =>
    h t b (by simp [hb]) (ht.trans (ha.cfg.trans hl.cfg))
  rw [hrest.elsewhere j (fun ⟨b, hb, hj⟩ => hr b hb hj)]
  exact hv _ hl.cfg

/-- `plot` writes the byte of its pixel and no other. -/
theorem drawsAt_plot (on : Bool) (s : State) (x y : Nat) : DrawsAt (· = byteIndex s.cfg x y) s (plot on s x y) :=
  drawsAt_memWrite s _ _

/-- A pixel inside the framebuffer has its byte inside the framebuffer. -/
theorem byteIndex_lt (c : Config) {x y : Nat} (h : inRange c x y = true) : byteIndex c x y < c.fbLen := by
  rw [inRange_iff] at h
  rw [Config.fbLen_eq]
  have hp : page y ≤ 7 := by
    have := h.2
    simp only [page]
    omega
  calc byteIndex c x y ≤ 7 * c.W + x := Nat.add_le_add_right (Nat.mul_le_mul_right _ hp) _
    _ < 8 * c.W := by omega

/-- Two in-range pixels share a byte and a bit only if they are the same pixel. -/
theorem pixel_address_inj (c : Config) {x y x' y' : Nat} (hx : x < c.W) (hx' : x' < c.W)
    (hi : byteIndex c x y = byteIndex c x' y') (hb : bitIndex y = bitIndex y') : x = x' ∧ y = y' := by
  simp only [byteIndex, bitIndex, page] at hi hb
  have hmod : x = x' := by
    have := congrArg (· % c.W) hi
    simpa [Nat.mul_add_mod', Nat.mod_eq_of_lt hx, Nat.mod_eq_of_lt hx'] using this
  subst hmod
  have hp : y / 8 = y' / 8 := Nat.eq_of_mul_eq_mul_right (by have := c.W_ge; omega) (Nat.add_right_cancel hi)
  omega

/-- `plot` sets its own pixel and leaves every other pixel of the display as it was. -/
theorem pixel_plot (on : Bool) (s : State) {x y px py : Nat} (hx : x < s.cfg.W) (hpx : px < s.cfg.W) :
    pixel (plot on s x y) px py = if px = x ∧ py = y then on else pixel s px py := by
  have hcfg : (plot on s x y).cfg = s.cfg := rfl
  simp only [pixel, hcfg]
  simp only [plot, memRead_memWrite]
  have hlt : bitIndex y < 8 := Nat.mod_lt _ (by omega)
  split
  · next hi =>
    rw [withBit_bit _ _ _ _ hlt, hi]
    by_cases hb : bitIndex py = bitIndex y
    · obtain ⟨rfl, rfl⟩ := pixel_address_inj s.cfg hpx hx hi hb
      simp
    · rw [if_neg hb, if_neg (fun h => hb (by rw [h.2])), ← hi]
  · next hi => rw [if_neg (fun h => hi (by rw [h.1, h.2]))]

/-! ## Bus port -/

/-- The reply to the next write is the first of `answerAt`. -/
theorem nextAnswer_eq (s : State) : nextAnswer s = answerAt s 0 := by
  unfold nextAnswer answerAt
  cases s.answers <;> simp

/-- One write takes one reply. -/
theorem answerAt_busWrite (bytes : List Byte) (s : State) (n : Nat) :
    answerAt (busWrite bytes s).2 n = answerAt s (n + 1) := by
  unfold answerAt
  simp only [busWrite_answers, busWrite_draws]
  cases h : s.answers with
  | nil => simp [Nat.add_assoc, Nat.add_comm 1 n]
  | cons a as => simp

@[simp] theorem answerAt_busSetup (s : State) (n : Nat) : answerAt (busSetup s) n = answerAt s n := rfl

/-- `sendCommands` leaves the machine's registers alone: it writes the three bus fields. -/
theorem sendCommands_frame (bs : List Byte) (s : State) :
    (sendCommands bs s).2 =
      { s with
        busLog := (sendCommands bs s).2.busLog
        answers := (sendCommands bs s).2.answers
        draws := (sendCommands bs s).2.draws } := by
  induction bs generalizing s with
  | nil => rfl
  | cons b bs ih =>
    rw [sendCommands]
    cases h : busWrite (commandTransfer b) s with
    | mk a t =>
      have ht : t = (busWrite (commandTransfer b) s).2 := by rw [h]
      cases a
      · simp only
        rw [ih t, ht]
        rfl
      · simp only
        rw [ht]
        rfl

/-- `oneTransfer` by the reply it receives. -/
theorem oneTransfer_ok {bytes : List Byte} {f : State → State} {s : State} (h : nextAnswer s = .ok) :
    oneTransfer bytes f s = { f (busWrite bytes s).2 with busStatus := 1 } := by
  simp only [oneTransfer, busWrite, h, busStatusOf]

theorem oneTransfer_error {bytes : List Byte} {f : State → State} {s : State} (h : nextAnswer s = .error) :
    oneTransfer bytes f s = { (busWrite bytes s).2 with busStatus := 2 } := by
  simp only [oneTransfer, busWrite, h, busStatusOf]

/-! ## Prologue -/

/-- Everything a step can do, by what the prologue finds. -/
theorem step_cases {s t : State} (h : step s = .next t) :
    s.faulted = false ∧
      ((∃ i rest, decode (wordsAtCsp s) = .instr i rest ∧ exec i s = .next t) ∨
        ∃ why w0, decode (wordsAtCsp s) = .illegal why w0 ∧ t = raiseFault (illegalCause why) w0 s) := by
  unfold step fetch at h
  cases hf : s.faulted with
  | true => simp [hf] at h
  | false =>
    refine ⟨rfl, ?_⟩
    simp only [hf] at h
    cases hd : decode (wordsAtCsp s) with
    | instr i rest => exact .inl ⟨i, rest, rfl, by simpa [hd] using h⟩
    | illegal why w0 => exact .inr ⟨why, w0, rfl, by simpa [hd] using h.symm⟩
    | noCommand => simp [hd] at h
    | noPayload => simp [hd] at h

/-- A decoded command runs. -/
theorem step_of_decode {s : State} {i : Instr} {rest : List Word} (hf : s.faulted = false)
    (hd : decode (wordsAtCsp s) = .instr i rest) : step s = exec i s := by
  simp [step, fetch, hf, hd]

end Sys2Proof.Machine
end

