-- ==== Sys2Proof/Laws/Bus.lean ====
section
/-! SUPPORT. What a sequence of bus writes does, by the replies (43_device.md R190, R193, R197). -/

namespace Sys2Proof.Machine

/-- The state after one write. -/
theorem busWrite_eq_afterWrites (b : List Byte) (s : State) : (busWrite b s).2 = afterWrites 1 [.write s.cfg.devAddr b (nextAnswer s)] s := by
  simp only [busWrite, afterWrites]
  cases h : s.answers <;> simp

/-- Writes after writes. -/
theorem afterWrites_afterWrites (m n : Nat) (e f : List BusEvent) (s : State) : afterWrites n f (afterWrites m e s) = afterWrites (m + n) (e ++ f) s := by
  simp only [afterWrites, List.drop_drop, List.length_drop, List.append_assoc]
  congr 1; omega

/-- A setup event takes no reply. -/
theorem busSetup_eq_afterWrites (s : State) : busSetup s = afterWrites 0 [.setup s.cfg.busId s.cfg.busClkHz s.cfg.sdaPin s.cfg.sclPin] s := by
  simp [busSetup, afterWrites]

/-- The replies left after `m` writes. -/
theorem answerAt_afterWrites (m e) (s : State) (n) : answerAt (afterWrites m e s) n = answerAt s (m + n) := by
  simp [answerAt, afterWrites, List.getD_eq_getElem?_getD]
  congr 2; omega

/-- The event of one command byte. -/
def commandEvent (s : State) (a : BusAnswer) (b : Byte) : BusEvent := .write s.cfg.devAddr [0x00, b] a

/-- With every reply `ok`, every byte is sent. -/
theorem sendCommands_all_ok (bs : List Byte) (s : State) (h : ∀ n, n < bs.length → answerAt s n = .ok) :
   sendCommands bs s = (.ok, afterWrites bs.length (bs.map (commandEvent s .ok)) s) := by
  induction bs generalizing s with
  | nil => simp [sendCommands, afterWrites]
  | cons b bs ih =>
    have h0 := h 0 (by simp)
    rw [← nextAnswer_eq] at h0
    have e : busWrite (commandTransfer b) s = (.ok, afterWrites 1 [commandEvent s .ok b] s) := by
      refine Prod.ext h0 ?_; rw [busWrite_eq_afterWrites, h0]; rfl
    rw [sendCommands, e]; simp only
    rw [ih]
    · rw [afterWrites_afterWrites]; simp only [List.length_cons, Nat.add_comm]; rfl
    · intro n hn; rw [answerAt_afterWrites, Nat.add_comm]; exact h _ (by simpa using hn)

/-- With the first error at byte `n`, byte `n` is the last one sent. -/
theorem sendCommands_error (bs : List Byte) (s : State) (n : Nat) (hn : n < bs.length) (h : ∀ k, k < n → answerAt s k = .ok) (he : answerAt s n = .error) :
   sendCommands bs s = (.error, afterWrites (n+1) ((bs.take n).map (commandEvent s .ok) ++ [commandEvent s .error bs[n]]) s) := by
  induction bs generalizing s n with
  | nil => simp at hn
  | cons b bs ih =>
    cases n with
    | zero =>
      rw [← nextAnswer_eq] at he
      have e : busWrite (commandTransfer b) s = (.error, afterWrites 1 [commandEvent s .error b] s) := by
        refine Prod.ext he ?_; rw [busWrite_eq_afterWrites, he]; rfl
      rw [sendCommands, e]; simp
    | succ n =>
      have h0 := h 0 (by omega)
      rw [← nextAnswer_eq] at h0
      have e : busWrite (commandTransfer b) s = (.ok, afterWrites 1 [commandEvent s .ok b] s) := by
        refine Prod.ext h0 ?_; rw [busWrite_eq_afterWrites, h0]; rfl
      rw [sendCommands, e]; simp only
      rw [ih _ n (by simpa using hn)]
      · rw [afterWrites_afterWrites, show 1 + (n+1) = n+1+1 by omega]; rfl
      · intro k hk; rw [answerAt_afterWrites, Nat.add_comm]; exact h _ (by omega)
      · rw [answerAt_afterWrites, Nat.add_comm]; exact he

end Sys2Proof.Machine
end

