-- ==== Sys2Proof/Machine/Display.lean ====
section
/-! DEFINITION. How the device reads what FLUSH sends (20_memory.md R60 to R62): horizontal addressing over the column
range `[0, W-1]` and the page range `[0, 7]`. No command reads any of this; the rules are informative and rest in part
on general knowledge (assumption log 19). -/

namespace Sys2Proof.Machine

/-- The device's write pointer. -/
structure DevicePointer where
  page : Nat
  column : Nat
deriving DecidableEq, Repr

/-- Where setting the two ranges leaves the pointer (R60). -/
def DevicePointer.start : DevicePointer := ⟨0, 0⟩

/-- The pointer after one data byte: the column first, then the page, and past the last of both to the start (R60,
R61). -/
def DevicePointer.advance (c : Config) (p : DevicePointer) : DevicePointer :=
  if p.column + 1 < c.W then ⟨p.page, p.column + 1⟩ else ⟨(p.page + 1) % Config.pages, 0⟩

/-- Where each data byte of a transfer lands (R62). -/
def landing (c : Config) (p : DevicePointer) : List Byte → List (DevicePointer × Byte)
  | [] => []
  | b :: bs => (p, b) :: landing c (p.advance c) bs

/-- The pointer after a transfer. -/
def pointerAfter (c : Config) (p : DevicePointer) : List Byte → DevicePointer
  | [] => p
  | _ :: bs => pointerAfter c (p.advance c) bs

end Sys2Proof.Machine
end

