-- ==== Sys2Proof/Laws/Display.lean ====
section
/-! SUPPORT. Where the bytes of a flush land on the device (20_memory.md R61, R62). -/

namespace Sys2Proof.Machine

/-- The pointer that stands at data byte `k`. -/
def pointerAt (c : Config) (k : Nat) : DevicePointer := ⟨k / c.W % 8, k % c.W⟩

theorem pointerAt_zero (c : Config) : pointerAt c 0 = DevicePointer.start := by simp [pointerAt, DevicePointer.start]

theorem pointerAt_succ (c : Config) (k : Nat) : (pointerAt c k).advance c = pointerAt c (k + 1) := by
  have hw := c.W_ge
  have hk := Nat.div_add_mod k c.W
  have hlt := Nat.mod_lt k (show 0 < c.W by omega)
  show (if k % c.W + 1 < c.W then (⟨k / c.W % 8, k % c.W + 1⟩ : DevicePointer) else ⟨(k / c.W % 8 + 1) % 8, 0⟩) =
    ⟨(k + 1) / c.W % 8, (k + 1) % c.W⟩
  by_cases h : k % c.W + 1 < c.W
  · rw [if_pos h]
    have hd : (k + 1) / c.W = k / c.W := by
      rw [show k + 1 = c.W * (k / c.W) + (k % c.W + 1) by omega, Nat.mul_add_div (by omega), Nat.div_eq_of_lt h]
      omega
    have hm : (k + 1) % c.W = k % c.W + 1 := by
      rw [show k + 1 = c.W * (k / c.W) + (k % c.W + 1) by omega, Nat.mul_add_mod, Nat.mod_eq_of_lt h]
    rw [hd, hm]
  · rw [if_neg h]
    have he : k + 1 = c.W * (k / c.W + 1) := by rw [Nat.mul_add]; omega
    rw [he, Nat.mul_div_cancel_left _ (by omega), Nat.mul_mod_right]
    congr 1
    omega

/-- R62: data byte `k` lands at page `k / W`, column `k % W`, the place R52 gives framebuffer byte `k`. -/
theorem landing_from (c : Config) (n : Nat) (bs : List Byte) :
    landing c (pointerAt c n) bs = bs.zipIdx.map fun bk => (pointerAt c (n + bk.2), bk.1) := by
  induction bs generalizing n with
  | nil => rfl
  | cons b bs ih =>
    rw [landing, pointerAt_succ, ih, List.zipIdx_cons', List.map_cons, List.map_map]
    simp [Function.comp_def, Nat.add_assoc, Nat.add_comm 1]

/-- R61: a transfer of `W * 8` bytes leaves the pointer where it found it. -/
theorem pointerAfter_from (c : Config) (n : Nat) (bs : List Byte) :
    pointerAfter c (pointerAt c n) bs = pointerAt c (n + bs.length) := by
  induction bs generalizing n with
  | nil => rfl
  | cons b bs ih =>
    rw [pointerAfter, pointerAt_succ, ih, List.length_cons]
    congr 1
    omega

theorem pointerAfter_flush (c : Config) (bs : List Byte) (h : bs.length = 8 * c.W) :
    pointerAfter c DevicePointer.start bs = DevicePointer.start := by
  have hw := c.W_ge
  rw [← pointerAt_zero, pointerAfter_from, h]
  simp [pointerAt, Nat.mul_div_cancel _ (show 0 < c.W by omega)]

end Sys2Proof.Machine
end

