-- ==== Sys2Proof/Laws/Draw.lean ====
section
/-! SUPPORT. Where each drawing operation writes, and what it leaves there. -/

namespace Sys2Proof.Machine

/-- Where `drawChar` draws: eight bytes from its origin, or nowhere. -/
def charArea (c : Config) (x y j : Nat) : Prop :=
  clip8 c x y = false ∧ ∃ k, k < 8 ∧ j = page y * c.W + x + k

/-- Where `drawBigChar` draws: sixteen bytes in each of two pages, or nowhere. -/
def bigCharArea (c : Config) (x y j : Nat) : Prop :=
  clip16 c x y = false ∧ ∃ k, k < 16 ∧ (j = page y * c.W + x + k ∨ j = (page y + 1) * c.W + x + k)

theorem drawsAt_plotAll (on : Bool) (s : State) (points : List (Int × Int)) :
    DrawsAt (fun j => ∃ p ∈ points, j = byteIndex s.cfg p.1.toNat p.2.toNat) s (plotAll on s points) := by
  unfold plotAll
  refine drawsAt_foldl (fun (p : Int × Int) j => j = byteIndex s.cfg p.1.toNat p.2.toNat)
    (fun t p => plot on t p.1.toNat p.2.toNat) points s fun t p _ ht => ?_
  have h := drawsAt_plot on t p.1.toNat p.2.toNat
  rwa [ht] at h

/-- `plotAll` sets the pixels of its points and no other pixel of the display. -/
theorem pixel_plotAll (on : Bool) (s : State) (points : List (Int × Int)) (px py : Nat) (hpx : px < s.cfg.W)
    (h : ∀ p ∈ points, 0 ≤ p.1 ∧ 0 ≤ p.2 ∧ p.1.toNat < s.cfg.W) :
    pixel (plotAll on s points) px py = if ((px : Int), (py : Int)) ∈ points then on else pixel s px py := by
  induction points generalizing s with
  | nil => simp [plotAll]
  | cons p ps ih =>
    have hp := h p List.mem_cons_self
    have hcfg : (plot on s p.1.toNat p.2.toNat).cfg = s.cfg := rfl
    have := ih (plot on s p.1.toNat p.2.toNat) hpx (fun q hq => h q (List.mem_cons_of_mem _ hq))
    rw [show plotAll on s (p :: ps) = plotAll on (plot on s p.1.toNat p.2.toNat) ps from rfl, this,
      pixel_plot on s hp.2.2 hpx]
    have hiff : (px = p.1.toNat ∧ py = p.2.toNat) ↔ ((px : Int), (py : Int)) = p := by
      rw [Prod.ext_iff]
      simp only
      omega
    simp only [hiff, List.mem_cons]
    split_ifs <;> simp_all

theorem drawsAt_drawChar (x y : Nat) (ch : Byte) (s : State) :
    DrawsAt (charArea s.cfg x y) s (drawChar x y ch s) := by
  unfold drawChar
  split
  · exact DrawsAt.refl _ s
  · next hc =>
    have h := drawsAt_foldl (fun k j => j = page y * s.cfg.W + x + k)
      (fun t k => memWrite t (page y * t.cfg.W + x + k) (glyphByte t.cfg (glyphIndex ch) k)) (List.range 8) s
      fun t k _ ht => by
        have := drawsAt_memWrite t (page y * t.cfg.W + x + k) (glyphByte t.cfg (glyphIndex ch) k)
        rwa [ht] at this ⊢
    refine h.mono fun j hj => ?_
    obtain ⟨k, hk, rfl⟩ := hj
    exact ⟨by simpa using hc, k, List.mem_range.mp hk, rfl⟩

/-- A range up to `n` cut at `k`. -/
theorem range_split {n k : Nat} (h : k < n) :
    List.range n = List.range k ++ k :: (List.range (n - k - 1)).map (fun d => k + 1 + d) := by
  apply List.ext_getElem
  · simp; omega
  · intro i h1 h2
    simp only [List.getElem_range]
    by_cases hik : i < k
    · rw [List.getElem_append_left (by simpa using hik)]; simp
    · rw [List.getElem_append_right (by simpa using hik)]
      by_cases he : i = k
      · simp [he]
      · rw [List.getElem_cons, dif_neg (by simp; omega)]
        simp
        omega

/-- Glyph column `k` stands at byte `x + k` of the page. -/
theorem memRead_drawChar {x y : Nat} {ch : Byte} {s : State} (hc : clip8 s.cfg x y = false) {k : Nat} (hk : k < 8) :
    memRead (drawChar x y ch s) (page y * s.cfg.W + x + k) = glyphByte s.cfg (glyphIndex ch) k := by
  unfold drawChar
  rw [if_neg (by simp [hc]), range_split hk]
  refine memRead_foldl_last (fun k j => j = page y * s.cfg.W + x + k) _ _ _ _ _ _ _ ?_ ?_ ?_
  · intro t b _ ht
    have := drawsAt_memWrite t (page y * t.cfg.W + x + b) (glyphByte t.cfg (glyphIndex ch) b)
    rwa [ht] at this ⊢
  · intro t ht
    simp only [ht, memRead_memWrite_same]
  · intro b hb
    obtain ⟨d, _, rfl⟩ := List.mem_map.mp hb
    omega

/-- Where one column of a double-size glyph is drawn. -/
def bigColumnArea (c : Config) (p x k j : Nat) : Prop :=
  ∃ e, e < 2 ∧ (j = p * c.W + x + 2 * k + e ∨ j = (p + 1) * c.W + x + 2 * k + e)

theorem drawsAt_drawBigColumn (p x : Nat) (ch : Byte) (s : State) (k : Nat) :
    DrawsAt (bigColumnArea s.cfg p x k) s (drawBigColumn p x ch s k) := by
  unfold drawBigColumn
  have h := drawsAt_foldl
    (fun e j => j = p * s.cfg.W + x + 2 * k + e ∨ j = (p + 1) * s.cfg.W + x + 2 * k + e)
    (fun t e =>
      memWrite (memWrite t (p * t.cfg.W + x + 2 * k + e) (lowByte (double16 (glyphByte s.cfg (glyphIndex ch) k))))
        ((p + 1) * t.cfg.W + x + 2 * k + e) (highByte (double16 (glyphByte s.cfg (glyphIndex ch) k))))
    (List.range 2) s fun t e _ ht => by
      have h1 := drawsAt_memWrite t (p * t.cfg.W + x + 2 * k + e)
        (lowByte (double16 (glyphByte s.cfg (glyphIndex ch) k)))
      have h2 := h1.trans (drawsAt_memWrite _ ((p + 1) * t.cfg.W + x + 2 * k + e)
        (highByte (double16 (glyphByte s.cfg (glyphIndex ch) k))))
      rw [ht] at h2 ⊢
      exact h2
  refine h.mono fun j hj => ?_
  obtain ⟨e, he, hj⟩ := hj
  exact ⟨e, List.mem_range.mp he, hj⟩

/-- The four bytes of one column of a double-size glyph, in a display at least 16 columns wide. -/
theorem memRead_drawBigColumn (p : Nat) {x : Nat} (ch : Byte) (s : State) {k : Nat} {e : Nat} (he : e < 2) :
    memRead (drawBigColumn p x ch s k) (p * s.cfg.W + x + 2 * k + e) =
        lowByte (double16 (glyphByte s.cfg (glyphIndex ch) k)) ∧
      memRead (drawBigColumn p x ch s k) ((p + 1) * s.cfg.W + x + 2 * k + e) =
        highByte (double16 (glyphByte s.cfg (glyphIndex ch) k)) := by
  have hw := s.cfg.W_ge
  have hmul : (p + 1) * s.cfg.W = p * s.cfg.W + s.cfg.W := Nat.succ_mul _ _
  have hr : List.range 2 = [0, 1] := rfl
  simp only [drawBigColumn, hr, List.foldl_cons, List.foldl_nil, memWrite_cfg, hmul, memRead_memWrite]
  have : e = 0 ∨ e = 1 := by omega
  rcases this with rfl | rfl
  · constructor
    · rw [if_neg (by omega), if_neg (by omega), if_neg (by omega), if_pos (by omega)]
    · rw [if_neg (by omega), if_neg (by omega), if_pos (by omega)]
  · constructor
    · rw [if_neg (by omega), if_pos (by omega)]
    · rw [if_pos (by omega)]

theorem drawsAt_drawBigChar (x y : Nat) (ch : Byte) (s : State) :
    DrawsAt (bigCharArea s.cfg x y) s (drawBigChar x y ch s) := by
  unfold drawBigChar
  split
  · exact DrawsAt.refl _ s
  · next hc =>
    have h := drawsAt_foldl (fun k j => bigColumnArea s.cfg (page y) x k j) (drawBigColumn (page y) x ch)
      (List.range 8) s fun t k _ ht => by
        have := drawsAt_drawBigColumn (page y) x ch t k
        rwa [ht] at this
    refine h.mono fun j hj => ?_
    obtain ⟨k, hk, e, he, hj⟩ := hj
    have := List.mem_range.mp hk
    refine ⟨by simpa using hc, 2 * k + e, by omega, ?_⟩
    simpa only [Nat.add_assoc] using hj

/-- The bytes of a double-size glyph: glyph column `k` at columns `x + 2k` and `x + 2k + 1` of both pages. -/
theorem memRead_drawBigChar {x y : Nat} {ch : Byte} {s : State} (hc : clip16 s.cfg x y = false) {k e : Nat}
    (hk : k < 8) (he : e < 2) :
    memRead (drawBigChar x y ch s) (page y * s.cfg.W + x + 2 * k + e) =
        lowByte (double16 (glyphByte s.cfg (glyphIndex ch) k)) ∧
      memRead (drawBigChar x y ch s) ((page y + 1) * s.cfg.W + x + 2 * k + e) =
        highByte (double16 (glyphByte s.cfg (glyphIndex ch) k)) := by
  have hclip : ¬(x > s.cfg.W - 16 ∨ y > 48) := fun h => by rw [(clip16_iff _ _ _).mpr h] at hc; cases hc
  have hw := s.cfg.W_ge
  have hmul : (page y + 1) * s.cfg.W = page y * s.cfg.W + s.cfg.W := Nat.succ_mul _ _
  unfold drawBigChar
  rw [if_neg (by simp [hc]), range_split hk]
  have hd : ∀ t b, b ∈ List.range k ++ k :: (List.range (8 - k - 1)).map (fun d => k + 1 + d) → t.cfg = s.cfg →
      DrawsAt (bigColumnArea s.cfg (page y) x b) t (drawBigColumn (page y) x ch t b) := fun t b _ ht => by
    have := drawsAt_drawBigColumn (page y) x ch t b
    rwa [ht] at this
  have hlater : ∀ b ∈ (List.range (8 - k - 1)).map (fun d => k + 1 + d), k < b ∧ b < 8 := fun b hb => by
    obtain ⟨d, hd, rfl⟩ := List.mem_map.mp hb
    have := List.mem_range.mp hd
    omega
  constructor
  · refine memRead_foldl_last (bigColumnArea s.cfg (page y) x) _ _ _ _ _ _ _ hd ?_ ?_
    · intro t ht
      have := (memRead_drawBigColumn (page y) (x := x) ch t (k := k) he).1
      rwa [ht] at this
    · rintro b hb ⟨e', he', hj⟩
      have := hlater b hb
      omega
  · refine memRead_foldl_last (bigColumnArea s.cfg (page y) x) _ _ _ _ _ _ _ hd ?_ ?_
    · intro t ht
      have := (memRead_drawBigColumn (page y) (x := x) ch t (k := k) he).2
      rwa [ht] at this
    · rintro b hb ⟨e', he', hj⟩
      have := hlater b hb
      omega

/-- Where a string draws: the areas of its characters. -/
theorem drawsAt_drawString (x y : Nat) (chars : List Byte) (s : State) :
    DrawsAt (fun j => ∃ cj ∈ chars.zipIdx, charArea s.cfg (x + 8 * cj.2) y j) s (drawString x y chars s) := by
  unfold drawString
  split
  · exact DrawsAt.refl _ s
  · refine drawsAt_foldl (fun (cj : Byte × Nat) j => charArea s.cfg (x + 8 * cj.2) y j) _ _ s fun t cj _ ht => ?_
    have := drawsAt_drawChar (x + 8 * cj.2) y cj.1 t
    rwa [ht] at this

theorem drawsAt_drawBigString (x y : Nat) (chars : List Byte) (s : State) :
    DrawsAt (fun j => ∃ cj ∈ chars.zipIdx, bigCharArea s.cfg (x + 16 * cj.2) y j) s (drawBigString x y chars s) := by
  unfold drawBigString
  split
  · exact DrawsAt.refl _ s
  · refine drawsAt_foldl (fun (cj : Byte × Nat) j => bigCharArea s.cfg (x + 16 * cj.2) y j) _ _ s fun t cj _ ht => ?_
    have := drawsAt_drawBigChar (x + 16 * cj.2) y cj.1 t
    rwa [ht] at this

/-- A glyph's area lies inside the framebuffer. -/
theorem charArea_lt {c : Config} {x y j : Nat} (h : charArea c x y j) : j < c.fbLen := by
  obtain ⟨hc, k, hk, rfl⟩ := h
  have hclip : ¬(x > c.W - 8 ∨ y > 56) := fun h => by rw [(clip8_iff _ _ _).mpr h] at hc; cases hc
  have hw := c.W_ge
  rw [Config.fbLen_eq]
  have hp : page y ≤ 7 := by simp only [page]; omega
  have := Nat.mul_le_mul_right c.W hp
  omega

theorem bigCharArea_lt {c : Config} {x y j : Nat} (h : bigCharArea c x y j) : j < c.fbLen := by
  obtain ⟨hc, k, hk, hj⟩ := h
  have hclip : ¬(x > c.W - 16 ∨ y > 48) := fun h => by rw [(clip16_iff _ _ _).mpr h] at hc; cases hc
  have hw := c.W_ge
  rw [Config.fbLen_eq]
  have hp : page y ≤ 6 := by simp only [page]; omega
  have h1 := Nat.mul_le_mul_right c.W hp
  have h2 : (page y + 1) * c.W = page y * c.W + c.W := Nat.succ_mul _ _
  omega

/-! ## Skipped glyphs, and drawing beside `csp` -/

theorem drawChar_of_clip {x y : Nat} {ch : Byte} {s : State} (h : clip8 s.cfg x y = true) : drawChar x y ch s = s :=
  if_pos h

theorem drawBigChar_of_clip {x y : Nat} {ch : Byte} {s : State} (h : clip16 s.cfg x y = true) :
    drawBigChar x y ch s = s :=
  if_pos h

/-- A loop whose body does not depend on `csp` does not either. -/
theorem foldl_advance {α : Type} (n : Nat) (f : State → α → State) (hf : ∀ s a, f (advance n s) a = advance n (f s a))
    (l : List α) (s : State) : l.foldl f (advance n s) = advance n (l.foldl f s) := by
  induction l generalizing s with
  | nil => rfl
  | cons a l ih => rw [List.foldl_cons, hf, ih, List.foldl_cons]

theorem drawChar_advance (x y : Nat) (ch : Byte) (n : Nat) (s : State) :
    drawChar x y ch (advance n s) = advance n (drawChar x y ch s) := by
  unfold drawChar
  rw [advance_cfg]
  split
  · rfl
  · exact foldl_advance n _ (fun _ _ => rfl) _ _

theorem drawBigChar_advance (x y : Nat) (ch : Byte) (n : Nat) (s : State) :
    drawBigChar x y ch (advance n s) = advance n (drawBigChar x y ch s) := by
  unfold drawBigChar
  rw [advance_cfg]
  split
  · rfl
  · exact foldl_advance n _ (fun _ _ => rfl) _ _

end Sys2Proof.Machine
end

