-- ==== Sys2Proof/Laws/Line.lean ====
section
/-! SUPPORT. The loop of 41_line.md R131: what its points are, by induction on the distance to go. -/

namespace Sys2Proof.Machine

/-- The list `l` of points goes from `r` columns and `m` rows before the endpoint to the endpoint, one move at a time,
without leaving the box between them and without a point twice. -/
structure LoopPoints (x1 y1 sx sy r m : Int) (l : List (Int × Int)) : Prop where
  hd : l.head? = some (x1 - sx * r, y1 - sy * m)
  last : l.getLast? = some (x1, y1)
  len : (l.length : Int) = max r m + 1
  box : ∀ p ∈ l, ∃ r' m' : Int, 0 ≤ r' ∧ r' ≤ r ∧ 0 ≤ m' ∧ m' ≤ m ∧ p = (x1 - sx * r', y1 - sy * m')
  nodup : l.Nodup
  chain : l.IsChain (fun p q => (q.1 - p.1).natAbs ≤ 1 ∧ (q.2 - p.2).natAbs ≤ 1)

/-- One move of the loop in front of such a list. -/
theorem LoopPoints.cons {x1 y1 sx sy r m r' m' : Int} {l} (hsx : sx = 1 ∨ sx = -1) (hsy : sy = 1 ∨ sy = -1)
   (h : LoopPoints x1 y1 sx sy r' m' l) (hr : r' = r ∨ r' = r - 1) (hm : m' = m ∨ m' = m - 1) (hmax : max r m = max r' m' + 1) (hr0 : 0 ≤ r) (hm0 : 0 ≤ m) :
   LoopPoints x1 y1 sx sy r m ((x1 - sx * r, y1 - sy * m) :: l) := by
  have hne : l ≠ [] := by intro h2; rw [h2] at h; have := h.hd; simp at this
  refine ⟨rfl, ?_, ?_, ?_, ?_, ?_⟩
  · rw [List.getLast?_cons_of_ne_nil hne]; exact h.last
  · rw [List.length_cons]; push_cast; rw [h.len]; omega
  · intro p hp
    rcases List.mem_cons.mp hp with rfl | hp
    · exact ⟨r, m, hr0, le_refl _, hm0, le_refl _, rfl⟩
    · obtain ⟨a, b, h1, h2, h3, h4, h5⟩ := h.box p hp
      exact ⟨a, b, h1, by omega, h3, by omega, h5⟩
  · rw [List.nodup_cons]
    refine ⟨fun hp => ?_, h.nodup⟩
    obtain ⟨a, b, h1, h2, h3, h4, h5⟩ := h.box _ hp
    have := Prod.mk.inj h5
    rcases hsx with rfl | rfl <;> rcases hsy with rfl | rfl <;> omega
  · cases l with
    | nil => simp
    | cons q l =>
      rw [List.isChain_cons_cons]
      refine ⟨?_, h.chain⟩
      have := h.hd
      simp at this
      subst this
      simp only
      rcases hsx with rfl | rfl <;> rcases hsy with rfl | rfl <;> rcases hr with rfl | rfl <;> rcases hm with rfl | rfl <;> constructor <;> omega

/-- The loop when no row difference exceeds the column difference: with `n` columns and `m` rows to go and the error
at `A - B + D`, every iteration moves one column. -/
theorem lineLoop_columns (x1 y1 sx sy A B : Int) (hsx : sx = 1 ∨ sx = -1) (hsy : sy = 1 ∨ sy = -1) (hA : 0 < A) (hB : 0 ≤ B) (hBA : B ≤ A) :
   ∀ (n fuel : Nat) (m D : Int), n < fuel → D = n * B - m * A → -A < 2 * D → 2 * D ≤ A → 
   LoopPoints x1 y1 sx sy n m (lineLoop x1 y1 A (-B) sx sy fuel (x1 - sx * n) (y1 - sy * m) (A - B + D)) ∧ 0 ≤ m ∧ m ≤ n := by
  intro n
  induction n with
  | zero =>
    intro fuel m D hf hD h1 h2
    have hm : m = 0 := by
      subst hD; simp at h1 h2
      by_contra hne
      rcases lt_or_gt_of_ne hne with h | h
      · have : m ≤ -1 := by omega
        nlinarith
      · have : 1 ≤ m := by omega
        nlinarith
    subst hm
    obtain ⟨f, rfl⟩ : ∃ f, fuel = f + 1 := ⟨fuel - 1, by omega⟩
    simp [lineLoop]
    exact ⟨by simp, by simp, by simp, by simp; exact ⟨0, le_refl _, le_refl _, 0, le_refl _, le_refl _, by simp, by simp⟩, by simp, by simp⟩
  | succ n ih =>
    intro fuel m D hf hD h1 h2
    obtain ⟨f, rfl⟩ : ∃ f, fuel = f + 1 := ⟨fuel - 1, by omega⟩
    have hm0 : 0 ≤ m := by
      by_contra hne
      have : m ≤ -1 := by omega
      push_cast at hD
      nlinarith
    have hmn : m ≤ n + 1 := by
      by_contra hne
      have : n + 2 ≤ m := by omega
      push_cast at hD
      nlinarith
    have hx : ¬(x1 - sx * ((n + 1 : Nat) : Int) = x1 ∧ y1 - sy * m = y1) := by
      rintro ⟨h, _⟩; push_cast at h; rcases hsx with rfl | rfl <;> omega
    rw [lineLoop, if_neg hx]
    simp only
    have hgx : decide (2 * (A - B + D) ≥ -B) = true := by simp; omega
    rw [hgx]
    simp only [if_true]
    by_cases hy : 2 * (A - B + D) ≤ A
    · rw [decide_eq_true hy]
      simp only [if_true]
      have := ih f (m - 1) (D - B + A) (by omega) (by push_cast at hD ⊢; rw [hD]; ring) (by omega) (by omega)
      have e1 : x1 - sx * ((n+1 : Nat):Int) + sx = x1 - sx * n := by push_cast; ring
      have e2 : y1 - sy * m + sy = y1 - sy * (m-1) := by ring
      have e3 : A - B + D + -B + A = A - B + (D - B + A) := by ring
      rw [e1, e2, e3]
      refine ⟨LoopPoints.cons hsx hsy this.1 (by push_cast; omega) (by omega) (by push_cast; omega) (by omega) hm0, hm0, by push_cast; omega⟩
    · rw [decide_eq_false hy]
      simp only [if_false, Bool.false_eq_true]
      have := ih f m (D - B) (by omega) (by push_cast at hD ⊢; rw [hD]; ring) (by omega) (by omega)
      have e1 : x1 - sx * ((n+1 : Nat):Int) + sx = x1 - sx * n := by push_cast; ring
      have e3 : A - B + D + -B + 0 = A - B + (D - B) := by ring
      rw [e1, e3]
      refine ⟨LoopPoints.cons hsx hsy this.1 (by push_cast; omega) (by omega) (by push_cast; omega) (by omega) hm0, hm0, by push_cast; omega⟩

/-- The loop when the row difference is the greater: every iteration moves one row. -/
theorem lineLoop_rows (x1 y1 sx sy A B : Int) (hsx : sx = 1 ∨ sx = -1) (hsy : sy = 1 ∨ sy = -1) (hA : 0 ≤ A) (hBA : A < B) :
   ∀ (n fuel : Nat) (r D : Int), n < fuel → D = r * B - n * A → -B ≤ 2 * D → 2 * D < B → 
   LoopPoints x1 y1 sx sy r n (lineLoop x1 y1 A (-B) sx sy fuel (x1 - sx * r) (y1 - sy * n) (A - B + D)) ∧ 0 ≤ r ∧ r ≤ n := by
  intro n
  induction n with
  | zero =>
    intro fuel m D hf hD h1 h2
    have hm : m = 0 := by
      subst hD; simp at h1 h2
      by_contra hne
      rcases lt_or_gt_of_ne hne with h | h
      · have : m ≤ -1 := by omega
        nlinarith
      · have : 1 ≤ m := by omega
        nlinarith
    subst hm
    obtain ⟨f, rfl⟩ : ∃ f, fuel = f + 1 := ⟨fuel - 1, by omega⟩
    simp [lineLoop]
    exact ⟨by simp, by simp, by simp, by simp; exact ⟨0, le_refl _, le_refl _, 0, le_refl _, le_refl _, by simp, by simp⟩, by simp, by simp⟩
  | succ n ih =>
    intro fuel m D hf hD h1 h2
    obtain ⟨f, rfl⟩ : ∃ f, fuel = f + 1 := ⟨fuel - 1, by omega⟩
    have hm0 : 0 ≤ m := by
      by_contra hne
      have : m ≤ -1 := by omega
      push_cast at hD
      nlinarith
    have hmn : m ≤ n + 1 := by
      by_contra hne
      have : n + 2 ≤ m := by omega
      push_cast at hD
      nlinarith
    have hx : ¬(x1 - sx * m = x1 ∧ y1 - sy * ((n + 1 : Nat) : Int) = y1) := by
      rintro ⟨_, h⟩; push_cast at h; rcases hsy with rfl | rfl <;> omega
    rw [lineLoop, if_neg hx]
    simp only
    have hgx : decide (2 * (A - B + D) ≤ A) = true := by simp; omega
    rw [hgx]
    simp only [if_true]
    by_cases hy : 2 * (A - B + D) ≥ -B
    · rw [decide_eq_true hy]
      simp only [if_true]
      have := ih f (m - 1) (D - B + A) (by omega) (by push_cast at hD ⊢; rw [hD]; ring) (by omega) (by omega)
      have e1 : y1 - sy * ((n+1 : Nat):Int) + sy = y1 - sy * n := by push_cast; ring
      have e2 : x1 - sx * m + sx = x1 - sx * (m-1) := by ring
      have e3 : A - B + D + -B + A = A - B + (D - B + A) := by ring
      rw [e1, e2, e3]
      refine ⟨LoopPoints.cons hsx hsy this.1 (by omega) (by push_cast; omega) (by push_cast; omega) (by omega) (by omega), hm0, by push_cast; omega⟩
    · rw [decide_eq_false hy]
      simp only [if_false, Bool.false_eq_true]
      have := ih f m (D + A) (by omega) (by push_cast at hD ⊢; rw [hD]; ring) (by omega) (by omega)
      have e1 : y1 - sy * ((n+1 : Nat):Int) + sy = y1 - sy * n := by push_cast; ring
      have e3 : A - B + D + 0 + A = A - B + (D + A) := by ring
      rw [e1, e3]
      refine ⟨LoopPoints.cons hsx hsy this.1 (by omega) (by push_cast; omega) (by push_cast; omega) (by omega) (by omega), hm0, by push_cast; omega⟩

/-- A coordinate is its endpoint less its step sign times its distance. -/
theorem stepSign_spec (a b : Int) :
    (stepSign a b = 1 ∨ stepSign a b = -1) ∧ a = b - stepSign a b * (b - a).natAbs := by
  unfold stepSign
  split <;> constructor <;> omega

end Sys2Proof.Machine
end

