-- ==== Sys2Proof/Laws/PerInstr.lean ====
section
/-! SUPPORT. Statements made of every command as syntax, one lemma for each constructor. -/

namespace Sys2Proof.Laws.EncodeLength

/-- The number of words of a well-formed command is the length its first word tells (30_encoding.md R88). -/
def Statement (i : Instr) : Prop := i.wellFormed = true → (encode i).length = commandLength i.firstWord

/-- A command without a payload is one word. -/
theorem of_oneWord {i : Instr} (hc : i.chars = []) (ho : fieldOP i.firstWord ≠ 0x07 ∧ fieldOP i.firstWord ≠ 0x08) :
    Statement i := fun _ => by
  rw [commandLength, if_neg (not_or.mpr ho)]
  simp [encode, payloadOf, ceil8, hc]

/-- A string command is one word and a payload. -/
theorem of_string {i : Instr} (hl : i.chars.length ≤ 255)
    (ho : fieldOP i.firstWord = 0x07 ∨ fieldOP i.firstWord = 0x08)
    (hf : fieldLEN i.firstWord = BitVec.ofNat 8 i.chars.length) : Statement i := fun _ => by
  have h : (BitVec.ofNat 8 i.chars.length).toNat = i.chars.length := by simp; omega
  rw [commandLength, if_pos ho, hf, h]
  simp [encode, payloadOf, Nat.add_comm]

theorem clear : Statement .clear :=
  of_oneWord rfl (by simp [Instr.firstWord])
theorem setPixel (x y : Byte) (on : Bool) : Statement (.setPixel x y on) :=
  of_oneWord rfl (by simp [Instr.firstWord])
theorem getPixel (x y : Byte) : Statement (.getPixel x y) :=
  of_oneWord rfl (by simp [Instr.firstWord])
theorem drawLine (x0 y0 x1 y1 : Byte) (on : Bool) : Statement (.drawLine x0 y0 x1 y1 on) :=
  of_oneWord rfl (by simp [Instr.firstWord])
theorem writeChar (x y ch : Byte) : Statement (.writeChar x y ch) :=
  of_oneWord rfl (by simp [Instr.firstWord])
theorem writeBigChar (x y ch : Byte) : Statement (.writeBigChar x y ch) :=
  of_oneWord rfl (by simp [Instr.firstWord])
theorem writeString (x y : Byte) (chars : List Byte) : Statement (.writeString x y chars) := fun hw =>
  of_string (i := .writeString x y chars) (by simpa [Instr.wellFormed, Instr.chars] using hw) (by simp [Instr.firstWord])
    (by simp [Instr.firstWord, Instr.chars]) hw
theorem writeBigString (x y : Byte) (chars : List Byte) : Statement (.writeBigString x y chars) := fun hw =>
  of_string (i := .writeBigString x y chars) (by simpa [Instr.wellFormed, Instr.chars] using hw) (by simp [Instr.firstWord])
    (by simp [Instr.firstWord, Instr.chars]) hw
theorem init : Statement .init :=
  of_oneWord rfl (by simp [Instr.firstWord])
theorem invert (v : Bool) : Statement (.invert v) :=
  of_oneWord rfl (by simp [Instr.firstWord])
theorem powerOff : Statement .powerOff :=
  of_oneWord rfl (by simp [Instr.firstWord])
theorem powerOn : Statement .powerOn :=
  of_oneWord rfl (by simp [Instr.firstWord])
theorem flush : Statement .flush :=
  of_oneWord rfl (by simp [Instr.firstWord])

end Sys2Proof.Laws.EncodeLength
end

