-- ==== Sys2Proof/Tests/Slice0.lean ====
section
/-! SUPPORT. Tests of the model, and the witnesses of the statements. Expected values are those of spec/95_test_vectors.md
(V-D, V-P, V-L, V-G, V-S, V-B) and 30_encoding.md R91, or words written out from R81, R83 and R85. -/

namespace Sys2Proof.Machine

/-! ## Small states -/

/-- TEST_FONT of 95_test_vectors.md section 0. -/
def testFont : Vector (Vector Byte 8) 36 :=
  Vector.ofFn fun g =>
    if g = 0 then #v[0x1E, 0x28, 0x48, 0x88, 0x48, 0x28, 0x1E, 0x00]
    else if g = 1 then #v[0xFF, 0x91, 0x91, 0x91, 0x6E, 0, 0, 0]
    else if g = 26 then #v[0x7E, 0x85, 0x89, 0x91, 0x7E, 0, 0, 0]
    else Vector.replicate 8 0

/-- A configuration `extra + 16` columns wide. -/
def testConfig (extra : Fin 241) : Config :=
  ⟨extra, testFont, Config.defaultInitBytes (extra + 16), 1, 0x3C, 4, 5, 400000⟩

/-- Just launched with `W = 128`, the words `ws` supplied and the framebuffer list `m`. -/
def withWords (ws : List Word) (m : Memory) : State := { State.launch (testConfig 112) with port := ws, fb := m }

/-- The same, after an INIT that succeeded, with replies queued. -/
def afterInit (ws : List Word) (replies : List BusAnswer) : State :=
  { withWords ws [] with initDone := true, powered := true, busStatus := 1, answers := replies }

/-- Bytes `0xFF` at the listed indices. -/
def onesAt (l : List Nat) : Memory := l.map fun i => (i, 0xFF)

/-- The listed bytes at some indices after one step. -/
def bytesAfter (s : State) (l : List Nat) : List (Option Byte) :=
  match step s with
  | .next t => l.map t.fb.read
  | _ => []

/-- What the host reads after one step, and `csp`. -/
def statusAfter (s : State) : Option (StatusRead × Nat) :=
  match step s with
  | .next t => some (readStatus t, t.csp)
  | _ => none

/-- The bus events after one step. -/
def logAfter (s : State) : List BusEvent :=
  match step s with
  | .next t => t.busLog
  | _ => []

/-- Whether an outcome is a next state. -/
def isNext (o : Host.Outcome State Fault Refusal) : Bool :=
  match o with
  | .next _ => true
  | _ => false

/-- The command written `bytes`, answered `a`, of the test configuration. -/
def wrote (bytes : List Byte) (a : BusAnswer) : BusEvent := .write 0x3C bytes a

/-! ## Well-formedness -/

theorem test_wellFormed_refuses_long_string :
    (Instr.writeString 0 0 (List.replicate 256 0x41)).wellFormed = false := by decide +kernel
theorem test_wellFormed_refuses_long_bigString :
    (Instr.writeBigString 0 0 (List.replicate 256 0x41)).wellFormed = false := by decide +kernel
theorem test_wellFormed_accepts_longest_string :
    (Instr.writeString 0xFF 0xFF (List.replicate 255 0x41)).wellFormed = true := by decide +kernel

/-! ## Decoding: OP, LEN, CH, seven zeros and V, YB, XB, YA, XA, written out bit by bit -/

theorem test_decode_clear :
    decode [0b00000001_00000000_00000000_00000000_00000000_00000000_00000000_00000000] = .instr .clear [] := by decide
theorem test_decode_setPixel :
    decode [0b00000010_00000000_00000000_00000001_00000000_00000000_00111111_01111111] =
      .instr (.setPixel 127 63 true) [] := by decide
theorem test_decode_getPixel :
    decode [0b00000011_00000000_00000000_00000000_00000000_00000000_00001101_00000101] =
      .instr (.getPixel 5 13) [] := by decide
theorem test_decode_drawLine :
    decode [0b00000100_00000000_00000000_00000001_00111100_01111000_00111111_01111111] =
      .instr (.drawLine 127 63 120 60 true) [] := by decide
theorem test_decode_writeChar :
    decode [0b00000101_00000000_01000010_00000000_00000000_00000000_00001101_00000011] =
      .instr (.writeChar 3 13 0x42) [] := by decide
theorem test_decode_writeBigChar :
    decode [0b00000110_00000000_00110000_00000000_00000000_00000000_00110000_01110000] =
      .instr (.writeBigChar 112 48 0x30) [] := by decide
theorem test_decode_writeString :
    decode [0b00000111_00000011_00000000_00000000_00000000_00000000_00000010_00000001,
        0b00000000_00000000_00000000_00000000_00000000_00110000_01000010_01000001, 5] =
      .instr (.writeString 1 2 [0x41, 0x42, 0x30]) [5] := by decide
theorem test_decode_writeBigString :
    decode [0b00001000_00000001_00000000_00000000_00000000_00000000_00000000_01110001,
        0b00000000_00000000_00000000_00000000_00000000_00000000_00000000_01000001] =
      .instr (.writeBigString 113 0 [0x41]) [] := by decide
theorem test_decode_init :
    decode [0b00010000_00000000_00000000_00000000_00000000_00000000_00000000_00000000] = .instr .init [] := by decide
theorem test_decode_invert :
    decode [0b00010001_00000000_00000000_00000001_00000000_00000000_00000000_00000000] =
      .instr (.invert true) [] := by decide
theorem test_decode_powerOff :
    decode [0b00010010_00000000_00000000_00000000_00000000_00000000_00000000_00000000] = .instr .powerOff [] := by decide
theorem test_decode_powerOn :
    decode [0b00010011_00000000_00000000_00000000_00000000_00000000_00000000_00000000] = .instr .powerOn [] := by decide
theorem test_decode_flush :
    decode [0b00010100_00000000_00000000_00000000_00000000_00000000_00000000_00000000] = .instr .flush [] := by decide

/-- V-D1 to V-D4: reserved opcodes. -/
theorem test_decode_reserved_opcodes :
    [0x0000000000000000, 0x0900000000000000, 0x1500000000000000, 0xFF00000000000000].map (fun w => decode [w]) =
      [0x0000000000000000, 0x0900000000000000, 0x1500000000000000, 0xFF00000000000000].map (.illegal .opcode) := by
  decide
/-- V-D5 to V-D14: reserved fields. V-D10 has no payload present. -/
theorem test_decode_reserved_fields :
    [0x0200000300000000, 0x0100000000000001, 0x0200000100010D05, 0x0300000100000E05, 0x0500410000010000,
      0x0702000000010000, 0x1100000000000001, 0x1100000300000000, 0x1400000000000100, 0x0200000300000080].map
      (fun w => decode [w]) =
    [0x0200000300000000, 0x0100000000000001, 0x0200000100010D05, 0x0300000100000E05, 0x0500410000010000,
      0x0702000000010000, 0x1100000000000001, 0x1100000300000000, 0x1400000000000100, 0x0200000300000080].map
      (.illegal .reservedField) := by
  decide
/-- 95_test_vectors.md section 2.1, command lengths. -/
theorem test_command_lengths :
    [0x0600410000000000, 0x0700000000000000, 0x0701000000000000, 0x0708000000000000, 0x0709000000000000,
      0x08FF000000000000].map commandLength = [1, 1, 2, 2, 3, 33] := by decide
/-- V-S10: a byte past LEN is ignored. -/
theorem test_payload_junk_is_ignored :
    decode [0x0702000000000000, 0x0000FF0000004241] = .instr (.writeString 0 0 [0x41, 0x42]) [] := by decide
theorem test_decodeTableWord :
    decodeTableWord 64 0x0702000000000878 = some (.writeString 0x78 8 [0, 0]) ∧
      decodeTableWord 64 0x0900000000000000 = none := by decide

/-! ## Assembler (30_encoding.md R89, R90, and the lines of 95_test_vectors.md section 3) -/

theorem test_assemble_line :
    assembleLine "DRAW_LINE 0, 0, 3, 1, 1".toList = some [0x0400000101030000] := by decide
theorem test_assemble_string :
    assembleLine "WRITE_STRING 0, 0, \"A\\x00B\"".toList = some [0x0703000000000000, 0x0000000000420041] := by decide
theorem test_assemble_char :
    assembleLine "WRITE_CHAR 121, 0, 'A'".toList = some [0x0500410000000079] := by decide
theorem test_assemble_word :
    assembleLine ".word 0x0200000300000000".toList = some [0x0200000300000000] := by decide
theorem test_assemble_refuses_a_wide_operand :
    assembleLine "SET_PIXEL 256, 0, 1".toList = none ∧ assembleLine "SET_PIXEL 0, 0, 2".toList = none := by decide

/-! ## The step around the commands -/

theorem test_reset_waits : step State.reset = .fault .awaitCommand := rfl
/-- V-D1: the fault, and what the host reads. -/
theorem test_fault_entry :
    statusAfter (withWords [0x0900000000000000] []) = some (⟨0x018, 0x0900000000000000, 0⟩, 0) := by decide
/-- V-D15: NOP. -/
theorem test_nop : statusAfter (withWords [0x0700000000000000] []) = some (⟨0, 0, 0⟩, 1) := by decide
/-- V-S9: only the first payload word is present. -/
theorem test_hold_for_payload :
    step (withWords [0x0709000000000000, 0x4241424142414241] []) = .fault .awaitPayload := rfl
theorem test_halted : step { State.reset with faulted := true, port := [0x0100000000000000] } = .fault .halted :=
  rfl
theorem test_withFetchWord_runs :
    [0x0100000000000000, 0x0400000101030000, 0x0702000000000878, 0x1000000000000000].map
      (fun w => isNext (step (State.reset.withFetchWord 64 w))) = [true, true, true, true] := by decide

/-! ## CLEAR, SET_PIXEL, GET_PIXEL -/

/-- V-P15. -/
theorem test_clear :
    bytesAfter (withWords [0x0100000000000000] (onesAt [0, 500, 1023])) [0, 1, 500, 1023, 1024] =
      [some 0, some 0, some 0, some 0, none] := by decide +kernel
/-- V-P4. -/
theorem test_setPixel_off :
    bytesAfter (withWords [0x0200000000000D05] (onesAt [5, 133, 134])) [5, 133, 134] =
      [some 0xFF, some 0xDF, some 0xFF] := by decide
/-- V-P8. -/
theorem test_setPixel_faults_at_128 :
    statusAfter (withWords [0x0200000100000080] []) = some (⟨0x038, 0x0200000100000080, 0⟩, 0) := by decide
/-- V-P11. -/
theorem test_getPixel_on :
    statusAfter (withWords [0x0300000000000E05] [(133, 0x40)]) = some (⟨0x100, 0, 0⟩, 1) := by decide
/-- V-P12. -/
theorem test_getPixel_off :
    statusAfter (withWords [0x0300000000000D05] [(133, 0x40)]) = some (⟨0x000, 0, 0⟩, 1) := by decide

/-! ## DRAW_LINE -/

/-- V-L17 and V-L19. -/
theorem test_linePoints :
    linePoints 0 0 6 4 = [(0, 0), (1, 1), (2, 1), (3, 2), (4, 3), (5, 3), (6, 4)] ∧
      linePoints 3 9 0 7 = [(3, 9), (2, 8), (1, 8), (0, 7)] := by decide
/-- V-L24. -/
theorem test_drawLine :
    bytesAfter (withWords [0x040000013C783F7F] (Memory.zeros 1024))
      [1015, 1016, 1017, 1018, 1019, 1020, 1021, 1022, 1023] =
      [0x00, 0x10, 0x10, 0x20, 0x20, 0x40, 0x40, 0x80, 0x80].map some := by decide +kernel
/-- V-L25. -/
theorem test_drawLine_faults_before_plotting :
    statusAfter (withWords [0x0400000100800000] []) = some (⟨0x048, 0x0400000100800000, 0⟩, 0) ∧
      bytesAfter (withWords [0x0400000100800000] []) [0, 1] = [none, none] := by decide

/-! ## Glyphs and strings -/

/-- 95_test_vectors.md section 2.5. -/
theorem test_double16 : [0x48, 0x1E, 0x14, 0xA1].map double16 = [0x30C0, 0x03FC, 0x0330, 0xCC03] := by decide
/-- 95_test_vectors.md section 2.4. -/
theorem test_glyphIndex :
    [0x41, 0x7A, 0x30, 0x39, 0x40, 0x5B, 0x60, 0x7B, 0x2F, 0x3A, 0xC1].map glyphIndex =
      [1, 26, 27, 36, 0, 0, 0, 0, 0, 0, 0] := by decide
/-- V-G4: row 13 is drawn at page 1. -/
theorem test_writeChar :
    bytesAfter (withWords [0x0500420000000D03] []) [130, 131, 132, 133, 134, 135, 136, 137, 138, 139] =
      [none, some 0xFF, some 0x89, some 0x89, some 0x89, some 0x76, some 0, some 0, some 0, none] := by decide
/-- V-G9. -/
theorem test_writeChar_clips_raw_row :
    bytesAfter (withWords [0x0500410000003900] []) [896, 897] = [none, none] ∧
      statusAfter (withWords [0x0500410000003900] []) = some (⟨0, 0, 0⟩, 1) := by decide
/-- V-G13. -/
theorem test_writeBigChar :
    bytesAfter (withWords [0x0600300000003070] []) [880, 882, 886, 888, 895, 1008, 1010, 1012, 1016, 1023] =
      [0xFC, 0x03, 0xC3, 0xFC, 0x00, 0x3F, 0xCC, 0xC3, 0x3F, 0x00].map some := by decide
/-- V-G15. -/
theorem test_writeBigChar_clips :
    bytesAfter (withWords [0x0600410000003100] []) [768, 896] = [none, none] := by decide
/-- V-S3: the fourth character is dropped. -/
theorem test_writeString_drops :
    bytesAfter (withWords [0x0704000000000064, 0x0000000041414141] []) [100, 108, 116, 123, 124, 228] =
      [some 0x78, some 0x78, some 0x78, some 0x00, none, none] := by decide
/-- V-S5: `0x00` is a blank and does not end the string. -/
theorem test_writeString_zero_is_blank :
    bytesAfter (withWords [0x0703000000000000, 0x0000000000420041] []) [0, 8, 15, 16, 24] =
      [some 0x78, some 0, some 0, some 0xFF, none] := by decide
/-- V-S7. -/
theorem test_writeBigString :
    bytesAfter (withWords [0x0802000000000068, 0x0000000000004241] []) [103, 104, 117, 118, 120, 232, 245, 248] =
      [none, some 0xC0, some 0xC0, some 0, none, some 0x3F, some 0x3F, none] := by decide
/-- V-S8. -/
theorem test_writeBigString_origin :
    statusAfter (withWords [0x0801000000000071, 0x0000000000000041] []) = some (⟨0, 0, 0⟩, 2) := by decide

/-! ## Device commands -/

/-- V-B1. -/
theorem test_init_ok :
    statusAfter { withWords [0x1000000000000000] [] with answers := List.replicate 27 .ok } =
      some (⟨0x203, 0, 0⟩, 1) := by decide
/-- V-B2: the fourth write is answered with an error. -/
theorem test_init_error :
    logAfter { withWords [0x1000000000000000] [] with answers := [.ok, .ok, .ok, .error] } =
      [.setup 1 400000 4 5, wrote [0x00, 0xAE] .ok, wrote [0x00, 0xA8] .ok, wrote [0x00, 0x3F] .ok,
        wrote [0x00, 0xD3] .error] := by decide
/-- V-B3. -/
theorem test_invert_ok :
    statusAfter (afterInit [0x1100000100000000] [.ok]) = some (⟨0x207, 0, 0⟩, 1) ∧
      logAfter (afterInit [0x1100000100000000] [.ok]) = [wrote [0x00, 0xA7] .ok] := by decide
/-- V-B5. -/
theorem test_invert_error :
    statusAfter (afterInit [0x1100000100000000] [.error]) = some (⟨0x403, 0, 0⟩, 1) := by decide
/-- V-B6. -/
theorem test_powerOff_ok :
    statusAfter (afterInit [0x1200000000000000] [.ok]) = some (⟨0x201, 0, 0⟩, 1) ∧
      logAfter (afterInit [0x1200000000000000] [.ok]) = [wrote [0x00, 0xAE] .ok] := by decide
/-- V-B7. -/
theorem test_powerOn_ok :
    statusAfter { afterInit [0x1300000000000000] [.ok] with powered := false } = some (⟨0x203, 0, 0⟩, 1) ∧
      logAfter (afterInit [0x1300000000000000] [.ok]) = [wrote [0x00, 0xAF] .ok] := by decide
/-- V-B10. -/
theorem test_powerOn_before_init :
    statusAfter (withWords [0x1300000000000000] []) = some (⟨0x058, 0x1300000000000000, 0⟩, 0) := by decide
/-- V-B9. -/
theorem test_flush_before_init :
    statusAfter (withWords [0x1400000000000000] []) = some (⟨0x058, 0x1400000000000000, 0⟩, 0) := by decide
/-- V-B13, on a display of 16 columns: 128 data bytes after the control byte. -/
theorem test_flush_sends_everything :
    logAfter { afterInit [0x1400000000000000] [.ok] with cfg := testConfig 0, fb := Memory.zeros 128 } =
      [wrote (0x40 :: List.replicate 128 0) .ok] := by decide +kernel

/-! ## Witnesses: the hypotheses of each statement can be met, each clause at the ends of its range -/

theorem witness_DecodeOfEncode :
    (Instr.writeBigString 0xFF 0xFF (List.replicate 255 0xFF)).wellFormed = true ∧
      (Instr.writeString 0 0 []).wellFormed = true := by decide +kernel

theorem witness_DecodedCommandKeepsItsFirstWord :
    decode [0x0709000000000000, 0x4241424142414241, 0x41, 7] =
      .instr (.writeString 0 0 [0x41, 0x42, 0x41, 0x42, 0x41, 0x42, 0x41, 0x42, 0x41]) [7] := by decide

theorem witness_DecodingIsTotal_illegal :
    ([0x00FF000000000000, 0x0900000000000000, 0x0F00000000000000, 0x15FFFFFFFFFFFFFF, 0xFF00000000000000] :
      List Word).map (fun w => w.toNat / 2 ^ 56) = [0x00, 0x09, 0x0F, 0x15, 0xFF] := by simp
theorem witness_DecodingIsTotal_legal :
    ([0x0100000000000001, 0x08FF000000000000, 0x1000000000000000, 0x1400000000000000] : List Word).map
      (fun w => w.toNat / 2 ^ 56) = [0x01, 0x08, 0x10, 0x14] ∧
    (0x0100000000000001 : Word) &&& Op.clear.mustBeZero ≠ 0 ∧
    (0x08FF000000000000 : Word) &&& Op.writeBigString.mustBeZero = 0 ∧
    Op.writeBigString.payloadWords 0x08FF000000000000 ≤ (List.replicate 32 (0 : Word)).length :=
  ⟨by simp, by decide, by decide, by decide⟩

theorem witness_MaskAndMatchSelectTheCommand :
    (withWords [0x0100000000000001] []).faulted = false ∧
      (withWords [0x0100000000000001] []).port[0]? = some 0x0100000000000001 ∧
      ((0x0100000000000001 : Word) >>> 56).setWidth 8 = Op.clear.code ∧
      (0x0100000000000001 : Word) &&& Op.clear.mustBeZero ≠ 0 := by decide

theorem witness_PayloadBytesAreTheCharacters :
    checkWord 0x0700000000000000 = .ok .writeString ∧ (0 + 7) / 8 ≤ ([] : List Word).length ∧
      checkWord 0x08FF000000000000 = .ok .writeBigString ∧ (255 + 7) / 8 ≤ (List.replicate 32 (0 : Word)).length :=
  ⟨rfl, by decide, rfl, by decide⟩

theorem witness_FirstWordTellsTheLength :
    decode [0x0701000000000079, 0x41, 7] = .instr (.writeString 121 0 [0x41]) [7] ∧
      decode [0x1400000000000000, 7] = .instr .flush [7] := by decide

/-- Operands at the two ends of what fits, and the first that does not. -/
theorem witness_AssembledLinesDecode :
    (255 < 256 ∧ 0 < 256 ∧ 1 < 2) ∧ ¬(256 < 256 ∧ 0 < 256 ∧ 1 < 2) ∧ ¬(255 < 256 ∧ 0 < 256 ∧ 2 < 2) ∧
      (List.replicate 255 (0x41 : Byte)).length ≤ 255 ∧ ¬(List.replicate 256 (0x41 : Byte)).length ≤ 255 ∧
      (payloadOf [0x41])[0]? = some 0x41 ∧ 7 < 8 ∧ 2 ^ 64 - 1 < 2 ^ 64 ∧ ¬2 ^ 64 < 2 ^ 64 := by
  decide +kernel

theorem witness_StepRunsTheDecodedCommand :
    (withWords [0x1400000000000000] []).faulted = false ∧
      decode ((withWords [0x1400000000000000] []).port.drop 0) = .instr .flush [] := by decide

theorem witness_EncodedCommandRuns :
    let s : State := { withWords ([5] ++ encode (.writeString 1 2 [0x41]) ++ [6]) [] with csp := 1 }
    s.faulted = false ∧ (Instr.writeString 1 2 [0x41]).wellFormed = true ∧
      s.port = [5] ++ encode (.writeString 1 2 [0x41]) ++ [6] ∧ s.csp = [(5 : Word)].length := ⟨rfl, rfl, rfl, rfl⟩

theorem witness_StepMovesCspByTheLength :
    (∃ t, step (withWords [0x0700000000000000] []) = .next t ∧ t.faulted = false) ∧
      ∃ t, step (withWords [0x0000000000000000] []) = .next t ∧ t.faulted = true :=
  ⟨⟨_, rfl, rfl⟩, ⟨_, rfl, rfl⟩⟩

theorem witness_FaultEntryIsAllThatHappens :
    ∃ t, step { withWords [1, 0x0400000140000000] [] with csp := 1 } = .next t ∧ t.faulted = true := ⟨_, rfl, rfl⟩

/-- One word for each branch, the first of several faults where two apply. -/
theorem witness_FaultPriorityOrder :
    ([0x0900000000000000, 0x0200000300000080, 0x1100000000000001, 0x1400000000000000, 0x0200000100000080,
      0x0300000000004000, 0x0400000100800000, 0x0400000140000000, 0x0200000100003F7F, 0x0700000000000000] :
      List Word).map (fun w => ((withWords [w] []).faulted, (withWords [w] []).port[0]?,
        (statusAfter (withWords [w] [])).map fun r => r.1.status.extractLsb' 4 4)) =
    [(false, some 0x0900000000000000, some 1), (false, some 0x0200000300000080, some 2),
      (false, some 0x1100000000000001, some 2), (false, some 0x1400000000000000, some 5),
      (false, some 0x0200000100000080, some 3), (false, some 0x0300000000004000, some 3),
      (false, some 0x0400000100800000, some 4), (false, some 0x0400000140000000, some 4),
      (false, some 0x0200000100003F7F, some 0), (false, some 0x0700000000000000, some 0)] := by decide

theorem witness_NoStepExactlyWhenHaltedOrHeld :
    (withWords [0x0700000000000000] []).faulted = false ∧
      step (withWords [0x0700000000000000] []) ≠ .fault .awaitCommand ∧
      step (withWords [0x0700000000000000] []) ≠ .fault .awaitPayload := by
  have h : ∃ t, step (withWords [0x0700000000000000] []) = .next t := ⟨_, rfl⟩
  obtain ⟨t, h⟩ := h
  rw [h]
  exact ⟨rfl, nofun, nofun⟩

theorem witness_OnlyResetLeavesTheFault :
    let s : State := { withWords [] [] with faulted := true }
    s.faulted = true ∧ Move s (hostAct (.supply [1]) s) ∧ Move s (hostAct .assertReset s) :=
  ⟨rfl, .host _, .host _⟩

/-- The invariant holds in a state that a run reaches, with a command ready. -/
theorem witness_inv : Inv (withWords [0x0100000000000000] (onesAt [0, 1023])) where
  fbSorted := by decide
  fbInside := by decide
  cspInside := by decide
  busStatusLegal := by decide
  mirrorNeedsTransfer := by decide
  quietFault := by decide
  latchedFault := by decide
  busLegal := fun _ h => absurd h List.not_mem_nil

theorem witness_StepKeepsInvariant :
    Inv (withWords [0x0100000000000000] (onesAt [0, 1023])) ∧
      ∃ t, step (withWords [0x0100000000000000] (onesAt [0, 1023])) = .next t := ⟨witness_inv, _, rfl⟩

theorem witness_HostActionsKeepInvariant : Inv (withWords [0x0100000000000000] (onesAt [0, 1023])) := witness_inv

theorem witness_ReachableStatesKeepInvariantAndConfiguration :
    Reachable (testConfig 0) (State.launch (testConfig 0)) ∧
      Reachable (testConfig 240) (hostAct (.supply [1]) (State.launch (testConfig 240))) :=
  ⟨.launch, .move _ _ .launch (.host _)⟩

theorem witness_BusLogOnlyGrows :
    Move (withWords [] []) (hostAct (.answer [.error]) (withWords [] [])) ∧
      ∃ t, Move (withWords [0x1000000000000000] []) t := ⟨.host _, _, .mfr _ rfl⟩

theorem witness_FinalStatesAwaitACommand :
    Inv (withWords [0x0100000000000000] (onesAt [0, 1023])) ∧
      final (withWords [0x0100000000000000] (onesAt [0, 1023])) = false ∧ final (withWords [] []) = true :=
  ⟨witness_inv, rfl, rfl⟩

theorem witness_PixelsAndBitsCorrespond :
    15 < (testConfig 0).W ∧ 255 < (testConfig 240).W ∧ 63 < 64 ∧ 127 < 8 * (testConfig 0).W ∧
      2047 < 8 * (testConfig 240).W ∧ 7 < 8 := by decide

theorem witness_ClearZeroesTheFramebuffer : 1023 < 8 * (withWords [] []).cfg.W := by decide

theorem witness_ClearIsTheWriteLoop :
    (withWords [] (onesAt [0, 1023])).fb.wf ∧ (withWords [] (onesAt [0, 1023])).fb.below 1024 := by decide

theorem witness_SetPixelWritesOneByte :
    ((127#8).toNat < (withWords [] []).cfg.W ∧ (63#8).toNat < 64) ∧
      ¬((128#8).toNat < (withWords [] []).cfg.W ∧ (63#8).toNat < 64) ∧
      ¬((127#8).toNat < (withWords [] []).cfg.W ∧ (64#8).toNat < 64) := by decide

theorem witness_SetPixelLaws :
    (127#8).toNat < (withWords [] []).cfg.W ∧ (63#8).toNat < 64 ∧ (127#8).toNat < (withWords [] []).cfg.W ∧
      (62#8).toNat < 64 ∧ (127#8, 63#8) ≠ (127#8, 62#8) ∧
      ¬(0 = byteIndex (testConfig 112) 127 63 ∧ 7 = bitIndex 63) := by decide

theorem witness_GetPixelReadsOneBit :
    ((127#8).toNat < (withWords [] []).cfg.W ∧ (63#8).toNat < 64) ∧
      ¬((128#8).toNat < (withWords [] []).cfg.W ∧ (0#8).toNat < 64) ∧
      ¬((0#8).toNat < (withWords [] []).cfg.W ∧ (64#8).toNat < 64) := by decide

theorem witness_ReadsSeeWhatWasDrawn : (127#8).toNat < (withWords [] []).cfg.W ∧ (63#8).toNat < 64 := by decide

theorem witness_LinePointsStayInTheBox :
    0 < (testConfig 0).W ∧ 255 < (testConfig 240).W ∧ 63 < 64 ∧ ((2, 1) : Int × Int) ∈ linePoints 0 0 2 1 := by decide

theorem witness_DrawLinePlotsItsPoints :
    ((0#8).toNat < (withWords [] []).cfg.W ∧ (63#8).toNat < 64 ∧ (127#8).toNat < (withWords [] []).cfg.W ∧
      (0#8).toNat < 64) ∧
    ¬((0#8).toNat < (withWords [] []).cfg.W ∧ (63#8).toNat < 64 ∧ (128#8).toNat < (withWords [] []).cfg.W ∧
      (0#8).toNat < 64) ∧
    ¬((0#8).toNat < (withWords [] []).cfg.W ∧ (64#8).toNat < 64 ∧ (127#8).toNat < (withWords [] []).cfg.W ∧
      (0#8).toNat < 64) := by decide

theorem witness_DegenerateLineIsSetPixel :
    ((127#8).toNat < (withWords [] []).cfg.W ∧ (63#8).toNat < 64) ∧
      ¬((128#8).toNat < (withWords [] []).cfg.W ∧ (63#8).toNat < 64) := by decide

theorem witness_GlyphIndexOfEveryCode :
    (∀ ch ∈ [0x41#8, 0x5A#8], 0x41 ≤ ch.toNat ∧ ch.toNat ≤ 0x5A) ∧
    (∀ ch ∈ [0x61#8, 0x7A#8], 0x61 ≤ ch.toNat ∧ ch.toNat ≤ 0x7A) ∧
    (∀ ch ∈ [0x30#8, 0x39#8], 0x30 ≤ ch.toNat ∧ ch.toNat ≤ 0x39) ∧
    (∀ ch ∈ [0x00#8, 0x2F#8, 0x3A#8, 0x40#8, 0x5B#8, 0x60#8, 0x7B#8, 0xFF#8],
      ¬(0x41 ≤ ch.toNat ∧ ch.toNat ≤ 0x5A) ∧ ¬(0x61 ≤ ch.toNat ∧ ch.toNat ≤ 0x7A) ∧
        ¬(0x30 ≤ ch.toNat ∧ ch.toNat ≤ 0x39)) := by decide

theorem witness_WriteCharDrawsOneGlyph :
    ((121#8).toNat > (withWords [] []).cfg.W - 8 ∨ (0#8).toNat > 64 - 8) ∧
      ((0#8).toNat > (withWords [] []).cfg.W - 8 ∨ (57#8).toNat > 64 - 8) ∧
      ¬((120#8).toNat > (withWords [] []).cfg.W - 8 ∨ (56#8).toNat > 64 - 8) := by decide
/-- The clauses about `FONT_ROM`, and a character that is neither letter nor digit. -/
theorem witness_WriteCharDrawsOneGlyph_font :
    0 < 8 ∧ 7 < 8 ∧ 35 < 36 ∧ (¬(0x41 ≤ (0x40#8).toNat ∧ (0x40#8).toNat ≤ 0x5A) ∧
      ¬(0x61 ≤ (0x40#8).toNat ∧ (0x40#8).toNat ≤ 0x7A) ∧ ¬(0x30 ≤ (0x40#8).toNat ∧ (0x40#8).toNat ≤ 0x39)) := by
  decide

theorem witness_GlyphsStayInTheirPages :
    clip8 (testConfig 112) 120 63 = true ∧ clip8 (testConfig 112) 120 56 = false ∧
      clip16 (testConfig 112) 112 48 = false ∧ clip16 (testConfig 0) 0 0 = false := by decide

theorem witness_WriteCharLaws :
    ¬((120#8).toNat > (withWords [] []).cfg.W - 8 ∨ (56#8).toNat > 64 - 8) ∧
      (withWords [1] (onesAt [3])).cfg = (withWords [] []).cfg ∧
      (0x61 ≤ (0x61#8).toNat ∧ (0x61#8).toNat ≤ 0x7A) ∧ (0x61 ≤ (0x7A#8).toNat ∧ (0x7A#8).toNat ≤ 0x7A) := by decide

theorem witness_WriteBigCharDrawsOneGlyph :
    ((113#8).toNat > (withWords [] []).cfg.W - 16 ∨ (0#8).toNat > 64 - 16) ∧
      ((0#8).toNat > (withWords [] []).cfg.W - 16 ∨ (49#8).toNat > 64 - 16) ∧
      ¬((112#8).toNat > (withWords [] []).cfg.W - 16 ∨ (48#8).toNat > 64 - 16) := by decide

theorem witness_BigGlyphDownSamplesToTheGlyph :
    (withWords [1] (onesAt [3])).cfg = (withWords [] []).cfg ∧
      ¬((112#8).toNat > (withWords [] []).cfg.W - 16 ∨ (48#8).toNat > 64 - 16) ∧
      ¬((120#8).toNat > (withWords [] []).cfg.W - 8 ∨ (56#8).toNat > 64 - 8) := by decide

theorem witness_WriteStringDrawsEachCharacter :
    ([0x41#8, 0x42#8] : List Byte)[1]? = some 0x42 ∧
      ¬((112#8).toNat + 8 * 1 > (withWords [] []).cfg.W - 8 ∨ (56#8).toNat > 64 - 8) := by decide

theorem witness_WriteBigStringDrawsEachCharacter :
    ([0x41#8, 0x42#8] : List Byte)[1]? = some 0x42 ∧
      ¬((96#8).toNat + 16 * 1 > (withWords [] []).cfg.W - 16 ∨ (48#8).toNat > 64 - 16) := by decide

theorem witness_FailedOriginChangesNothing :
    ((121#8).toNat > (withWords [] []).cfg.W - 8 ∨ (0#8).toNat > 64 - 8) ∧
      ((113#8).toNat > (withWords [] []).cfg.W - 16 ∨ (0#8).toNat > 64 - 16) := by decide

theorem witness_InitSendsTheSequence_ok :
    ∀ n, n < 27 → answerAt { withWords [] [] with answers := List.replicate 27 .ok } n = .ok := by decide
theorem witness_InitSendsTheSequence_error :
    (∀ k, k < 26 → answerAt { withWords [] [] with answers := List.replicate 26 .ok ++ [.error] } k = .ok) ∧
      answerAt { withWords [] [] with answers := List.replicate 26 .ok ++ [.error] } 26 = .error ∧
      (∀ k, k < 0 → answerAt (afterInit [] [.error]) k = .ok) ∧ answerAt (afterInit [] [.error]) 0 = .error := by decide

theorem witness_InitLaws :
    ∀ n, n < 54 → answerAt { withWords [] [] with answers := List.replicate 54 .ok } n = .ok := by decide

/-- The three cases of INVERT, POWER_OFF, POWER_ON and FLUSH. -/
theorem witness_device_cases :
    (withWords [] []).initDone = false ∧ ((afterInit [] [.ok]).initDone = true ∧ answerAt (afterInit [] [.ok]) 0 = .ok) ∧
      ((afterInit [] [.error]).initDone = true ∧ answerAt (afterInit [] [.error]) 0 = .error) := by decide
theorem witness_InvertSetsThePolarity :
    (withWords [] []).initDone = false ∧ (afterInit [] [.ok]).initDone = true ∧
      answerAt (afterInit [] [.ok]) 0 = .ok ∧ answerAt (afterInit [] [.error]) 0 = .error := by decide
theorem witness_PowerOffClearsPowered :
    (withWords [] []).initDone = false ∧ (afterInit [] [.ok]).initDone = true ∧
      answerAt (afterInit [] [.ok]) 0 = .ok ∧ answerAt (afterInit [] [.error]) 0 = .error := by decide
theorem witness_PowerOnSetsPowered :
    (withWords [] []).initDone = false ∧ (afterInit [] [.ok]).initDone = true ∧
      answerAt (afterInit [] [.ok]) 0 = .ok ∧ answerAt (afterInit [] [.error]) 0 = .error := by decide
theorem witness_FlushSendsTheFramebuffer :
    (withWords [] []).initDone = false ∧ (afterInit [] [.ok]).initDone = true ∧
      answerAt (afterInit [] [.ok]) 0 = .ok ∧ answerAt (afterInit [] [.error]) 0 = .error := by decide

theorem witness_BusErrorsCompleteTheCommand :
    ∃ t, exec (.invert true) (afterInit [] [.error]) = .next t ∧
      t.busLog = (afterInit [] [.error]).busLog ++ [wrote [0x00, 0xA7] .error] ∧
      wrote [0x00, 0xA7] .error ∈ [wrote [0x00, 0xA7] .error] := ⟨_, rfl, rfl, by decide⟩

theorem witness_FlushLaws :
    ∃ t u : State, (afterInit [] [.ok, .error, .ok]).initDone = true ∧ u.initDone = true ∧
      (∀ i ∈ [Instr.invert true, .powerOff], isDrawing i = false) ∧
      exec .flush (afterInit [] [.ok, .error, .ok]) = .next t ∧
      [Instr.invert true, .powerOff].foldl (fun o i => match o with
        | Host.Outcome.next r => exec i r
        | _ => o) (Host.Outcome.next t) = .next u := by
  refine ⟨_, _, rfl, ?_, by decide, rfl, rfl⟩
  rfl
theorem witness_FlushLaws_event :
    ∃ t, exec .powerOn (afterInit [] [.ok]) = .next t ∧
      t.busLog = (afterInit [] [.ok]).busLog ++ [wrote [0x00, 0xAF] .ok] ∧
      wrote [0x00, 0xAF] .ok ∈ [wrote [0x00, 0xAF] .ok] := ⟨_, rfl, rfl, by decide⟩

theorem witness_DrawingAndDeviceCommandsAreApart :
    (∃ t, exec (.setPixel 128 0 true) (withWords [] []) = .next t ∧ isDrawing (.setPixel 128 0 true) = true) ∧
      ∃ t, exec .flush (withWords [] []) = .next t ∧ isDrawing .flush = false :=
  ⟨⟨_, rfl, rfl⟩, ⟨_, rfl, rfl⟩⟩

/-- Each register changes by some command. -/
theorem witness_RegistersAreWrittenOnlyByTheirCommands :
    (∃ t, exec .init { withWords [] [] with answers := List.replicate 27 .ok } = .next t ∧
      t.initDone ≠ false ∧ t.busStatus ≠ 0) ∧
    (∃ t, exec .powerOff (afterInit [] [.ok]) = .next t ∧ t.powered ≠ true) ∧
    (∃ t, exec (.invert true) (afterInit [] [.ok]) = .next t ∧ t.inverted ≠ false) ∧
    (∃ t, exec (.getPixel 0 0) (withWords [] (onesAt [0])) = .next t ∧ t.pixOut ≠ false) ∧
    (∃ t, exec (.setPixel 0 0 false) (withWords [] (onesAt [0])) = .next t ∧ t.fb ≠ onesAt [0]) ∧
    ∃ t, exec (.setPixel 128 0 false) (withWords [] []) = .next t ∧ t.faulted ≠ false :=
  ⟨⟨_, rfl, by decide, by decide⟩, ⟨_, rfl, by decide⟩, ⟨_, rfl, by decide⟩, ⟨_, rfl, by decide⟩, ⟨_, rfl, by decide⟩,
    ⟨_, rfl, by decide⟩⟩

end Sys2Proof.Machine
end

/-! # Facts the proofs share

## Words and the commands decoded from them -/

namespace Sys2Proof

/-- A bit field whose bits the mask `m` covers is zero in a word that avoids `m`. -/
theorem extractLsb'_eq_zero_of_mask {w m : Word} {k n : Nat} (h : w &&& m = 0)
    (hm : m.extractLsb' k n = BitVec.allOnes n) : w.extractLsb' k n = 0 := by
  calc w.extractLsb' k n = w.extractLsb' k n &&& m.extractLsb' k n := by rw [hm, BitVec.and_allOnes]
    _ = (w &&& m).extractLsb' k n := BitVec.extractLsb'_and.symm
    _ = 0 := by rw [h]; exact BitVec.extractLsb'_zero

/-- A legal word has no bit set between `CH` and `V`. -/
theorem reserved_eq_zero_of_mustBeZero {w : Word} {o : Op} (h : w &&& o.mustBeZero = 0) :
    w &&& 0x000000FE00000000 = 0 := by
  have hsub : o.mustBeZero &&& 0x000000FE00000000 = 0x000000FE00000000 := by cases o <;> rfl
  rw [← hsub, ← BitVec.and_assoc, h]
  exact BitVec.zero_and

/-- The first word of the command a legal word decodes to is that word (30_encoding.md R82 to R84). -/
theorem firstWord_operandsOf {w : Word} {o : Op} (h : checkWord w = .ok o) (ps : List Word) :
    (operandsOf o w ps).firstWord = w := by
  obtain ⟨hop, hzero⟩ := (checkWord_ok w o).mp h
  have hlen : fieldLEN o.mustBeZero = 0xFF → fieldLEN w = 0 := extractLsb'_eq_zero_of_mask hzero
  have hch : fieldCH o.mustBeZero = 0xFF → fieldCH w = 0 := extractLsb'_eq_zero_of_mask hzero
  have hyb : fieldYB o.mustBeZero = 0xFF → fieldYB w = 0 := extractLsb'_eq_zero_of_mask hzero
  have hxb : fieldXB o.mustBeZero = 0xFF → fieldXB w = 0 := extractLsb'_eq_zero_of_mask hzero
  have hya : fieldYA o.mustBeZero = 0xFF → fieldYA w = 0 := extractLsb'_eq_zero_of_mask hzero
  have hxa : fieldXA o.mustBeZero = 0xFF → fieldXA w = 0 := extractLsb'_eq_zero_of_mask hzero
  have hv : fieldV o.mustBeZero = true → fieldV w = false := fun hm => by
    have hbit : (w &&& o.mustBeZero).getLsbD 32 = false := by rw [hzero]; exact BitVec.getLsbD_zero
    rw [BitVec.getLsbD_and, show o.mustBeZero.getLsbD 32 = true from hm, Bool.and_true] at hbit
    exact hbit
  have packed := formatC_fields w (reserved_eq_zero_of_mustBeZero hzero)
  rw [hop] at packed
  cases o <;>
    simpa (disch := decide) only [operandsOf, Instr.firstWord, Op.code, length_payloadChars, BitVec.ofNat_toNat,
      BitVec.setWidth_eq, hlen, hch, hv, hyb, hxb, hya, hxa] using packed

/-- A command's words: one, and the payload of its characters. -/
theorem length_encode (i : Instr) : (encode i).length = 1 + ceil8 i.chars.length := by
  simp [encode, payloadOf, Nat.add_comm]

theorem length_encode_of_chars_nil {i : Instr} (h : i.chars = []) : (encode i).length = 1 := by
  simp [length_encode, h, ceil8]

/-- A command decoded from a legal word has the words that word tells. -/
theorem length_encode_operandsOf (o : Op) (w : Word) (ps : List Word) :
    (encode (operandsOf o w ps)).length = 1 + o.payloadWords w := by
  rw [length_encode]
  cases o <;> simp [operandsOf, Instr.chars, Op.payloadWords, length_payloadChars, ceil8]

end Sys2Proof

/-! ## The commands in one form

`exec i s` always answers a next state: the fault entry for the command's own fault (`faultOf`), or the command's
effect (`effect`) and then the move of `csp`. -/

namespace Sys2Proof.Machine

/-- The fault command `i` takes in state `s`, if it takes one (60_exceptions.md R236 to R238). -/
def faultOf (i : Instr) (s : State) : Option FaultCause :=
  match i with
  | .setPixel x y _ => if inRange s.cfg x.toNat y.toNat then none else some .pixelRange
  | .getPixel x y => if inRange s.cfg x.toNat y.toNat then none else some .pixelRange
  | .drawLine x0 y0 x1 y1 _ =>
    if inRange s.cfg x0.toNat y0.toNat && inRange s.cfg x1.toNat y1.toNat then none else some .lineRange
  | .invert _ => if s.initDone then none else some .notInitialized
  | .powerOff => if s.initDone then none else some .notInitialized
  | .powerOn => if s.initDone then none else some .notInitialized
  | .flush => if s.initDone then none else some .notInitialized
  | .clear => none
  | .writeChar _ _ _ => none
  | .writeBigChar _ _ _ => none
  | .writeString _ _ _ => none
  | .writeBigString _ _ _ => none
  | .init => none

/-- What command `i` does when it takes no fault, before `csp` moves. -/
def effect (i : Instr) (s : State) : State :=
  match i with
  | .clear => clearFb s
  | .setPixel x y on => plot on s x.toNat y.toNat
  | .getPixel x y => { s with pixOut := pixel s x.toNat y.toNat }
  | .drawLine x0 y0 x1 y1 on => plotAll on s (linePoints x0.toNat y0.toNat x1.toNat y1.toNat)
  | .writeChar x y ch => drawChar x.toNat y.toNat ch s
  | .writeBigChar x y ch => drawBigChar x.toNat y.toNat ch s
  | .writeString x y chars => drawString x.toNat y.toNat chars s
  | .writeBigString x y chars => drawBigString x.toNat y.toNat chars s
  | .init => initEffect s
  | .invert v => oneTransfer (commandTransfer (invertByte v)) (fun t => { t with inverted := v }) s
  | .powerOff => oneTransfer (commandTransfer 0xAE) (fun t => { t with powered := false }) s
  | .powerOn => oneTransfer (commandTransfer 0xAF) (fun t => { t with powered := true }) s
  | .flush => oneTransfer (dataTransfer (fbBytes s)) (fun t => t) s

/-- The state command `i` leaves. -/
def nextState (i : Instr) (s : State) : State :=
  match faultOf i s with
  | some cause => raiseFault cause i.firstWord s
  | none => advance (encode i).length (effect i s)

theorem nextState_of_fault {i : Instr} {s : State} {cause : FaultCause} (h : faultOf i s = some cause) :
    nextState i s = raiseFault cause i.firstWord s := by
  rw [nextState, h]

theorem nextState_of_noFault {i : Instr} {s : State} (h : faultOf i s = none) :
    nextState i s = advance (encode i).length (effect i s) := by
  rw [nextState, h]

/-- A one-word command that checks `b` first goes one of the two ways of `nextState`. -/
theorem checked_eq_nextState {i : Instr} {s : State} {b : Bool} {cause : FaultCause}
    (hf : faultOf i s = if b then none else some cause) (hc : i.chars = []) :
    (if b then .next (advance 1 (effect i s)) else .next (raiseFault cause i.firstWord s)) =
      (.next (nextState i s) : Host.Outcome State Fault Refusal) := by
  cases b
  · rw [nextState_of_fault hf]; rfl
  · rw [nextState_of_noFault hf, length_encode_of_chars_nil hc]; rfl

/-- Every command has its one form; none is refused and none stops the machine. -/
theorem exec_eq (i : Instr) (s : State) : exec i s = .next (nextState i s) := by
  cases i with
  | setPixel | getPixel | drawLine | invert | powerOff | powerOn | flush => exact checked_eq_nextState rfl rfl
  | clear | writeChar | writeBigChar | init =>
    rw [nextState_of_noFault rfl, length_encode_of_chars_nil rfl]; rfl
  | writeString | writeBigString =>
    rw [nextState_of_noFault rfl, length_encode]; rfl

theorem exec_next_iff {i : Instr} {s t : State} : exec i s = .next t ↔ t = nextState i s := by
  rw [exec_eq, Host.Outcome.next.injEq, eq_comm]

/-- Which command takes which fault of its own. -/
theorem faultOf_cases {i : Instr} {s : State} {cause : FaultCause} (h : faultOf i s = some cause) :
    (cause = .pixelRange ∧ ((∃ x y v, i = .setPixel x y v) ∨ ∃ x y, i = .getPixel x y)) ∨
      (cause = .lineRange ∧ ∃ x0 y0 x1 y1 v, i = .drawLine x0 y0 x1 y1 v) ∨
      (cause = .notInitialized ∧ s.initDone = false ∧
        ((∃ v, i = .invert v) ∨ i = .powerOff ∨ i = .powerOn ∨ i = .flush)) := by
  cases i with
  | setPixel x y v =>
    obtain ⟨-, ⟨⟩⟩ := Option.ite_none_left_eq_some.mp h
    exact .inl ⟨rfl, .inl ⟨x, y, v, rfl⟩⟩
  | getPixel x y =>
    obtain ⟨-, ⟨⟩⟩ := Option.ite_none_left_eq_some.mp h
    exact .inl ⟨rfl, .inr ⟨x, y, rfl⟩⟩
  | drawLine x0 y0 x1 y1 v =>
    obtain ⟨-, ⟨⟩⟩ := Option.ite_none_left_eq_some.mp h
    exact .inr (.inl ⟨rfl, x0, y0, x1, y1, v, rfl⟩)
  | invert | powerOff | powerOn | flush =>
    obtain ⟨hinit, ⟨⟩⟩ := Option.ite_none_left_eq_some.mp h
    exact .inr (.inr ⟨rfl, by simpa using hinit, by simp⟩)
  | clear | writeChar | writeBigChar | writeString | writeBigString | init => exact nomatch h

end Sys2Proof.Machine

/-! ## What the drawing commands do -/

namespace Sys2Proof.Machine

/-- The points of a line go from its first endpoint to its second one inside their box (41_line.md R132). -/
theorem loopPoints_linePoints (x0 y0 x1 y1 : Int) :
    LoopPoints x1 y1 (stepSign x0 x1) (stepSign y0 y1) (x1 - x0).natAbs (y1 - y0).natAbs
      (linePoints x0 y0 x1 y1) := by
  obtain ⟨hsx, hx⟩ := stepSign_spec x0 x1
  obtain ⟨hsy, hy⟩ := stepSign_spec y0 y1
  unfold linePoints
  generalize stepSign x0 x1 = sx at *
  generalize stepSign y0 y1 = sy at *
  generalize (x1 - x0).natAbs = n at *
  generalize (y1 - y0).natAbs = m at *
  subst hx hy
  have herr : (n : Int) + -(m : Int) = n - m + 0 := by omega
  simp only [herr]
  rcases lt_trichotomy n m with hlt | rfl | hlt
  · exact (lineLoop_rows x1 y1 sx sy n m hsx hsy (by omega) (by omega) m _ n 0 (by omega) (by ring) (by omega)
      (by omega)).1
  · rcases Nat.eq_zero_or_pos n with rfl | hpos
    · simp only [lineLoop]
      constructor <;> simp
      exact ⟨0, le_rfl, le_rfl, 0, le_rfl, le_rfl, by simp, by simp⟩
    · exact (lineLoop_columns x1 y1 sx sy n n hsx hsy (by omega) (by omega) le_rfl n _ n 0 (by omega) (by ring)
        (by omega) (by omega)).1
  · exact (lineLoop_columns x1 y1 sx sy n m hsx hsy (by omega) (by omega) (by omega) n _ m 0 (by omega) (by ring)
      (by omega) (by omega)).1

/-- A line between two points of the display stays on it. -/
theorem inRange_of_mem_linePoints {c : Config} {x0 y0 x1 y1 : Nat} (h0 : inRange c x0 y0 = true)
    (h1 : inRange c x1 y1 = true) {p : Int × Int} (hp : p ∈ linePoints x0 y0 x1 y1) :
    inRange c p.1.toNat p.2.toNat = true := by
  rw [inRange_iff] at *
  obtain ⟨r, m, hr0, hr, hm0, hm, rfl⟩ := (loopPoints_linePoints x0 y0 x1 y1).box p hp
  simp only [stepSign]
  constructor <;> split_ifs <;> omega

/-- `t` is `s` with another framebuffer, whose list keeps its canonical form and stays inside `0 .. FB_LEN-1`. -/
structure DrawsInside (s t : State) : Prop where
  onlyFb : t = { s with fb := t.fb }
  keepsWf : s.fb.wf → t.fb.wf
  keepsBelow : s.fb.below s.cfg.fbLen → t.fb.below s.cfg.fbLen

theorem DrawsAt.inside {A : Nat → Prop} {s t : State} (h : DrawsAt A s t) (hA : ∀ j, A j → j < s.cfg.fbLen) :
    DrawsInside s t :=
  ⟨h.onlyFb, h.keepsWf, h.keepsBelow _ hA⟩

theorem drawsInside_clearFb (s : State) : DrawsInside s (clearFb s) where
  onlyFb := rfl
  keepsWf _ := Memory.wf_zeros _
  keepsBelow _ := Memory.below_zeros _

/-- A drawing command that takes no fault writes the framebuffer only, inside its bounds; GET_PIXEL writes nothing
there (20_memory.md R57, R58). -/
theorem effect_drawsInside {i : Instr} {s : State} (hd : isDrawing i = true) (hg : ∀ x y, i ≠ .getPixel x y)
    (hf : faultOf i s = none) : DrawsInside s (effect i s) := by
  cases i with
  | clear => exact drawsInside_clearFb s
  | setPixel x y on =>
    have hin : inRange s.cfg x.toNat y.toNat = true := by simpa [faultOf] using hf
    exact (drawsAt_plot on s _ _).inside fun j hj => by rw [hj]; exact byteIndex_lt s.cfg hin
  | getPixel x y => exact absurd rfl (hg x y)
  | drawLine x0 y0 x1 y1 on =>
    have hin : inRange s.cfg x0.toNat y0.toNat = true ∧ inRange s.cfg x1.toNat y1.toNat = true := by
      simpa [faultOf] using hf
    refine (drawsAt_plotAll on s _).inside fun j ⟨p, hp, hj⟩ => ?_
    rw [hj]
    exact byteIndex_lt s.cfg (inRange_of_mem_linePoints hin.1 hin.2 hp)
  | writeChar => exact (drawsAt_drawChar _ _ _ s).inside fun _ => charArea_lt
  | writeBigChar => exact (drawsAt_drawBigChar _ _ _ s).inside fun _ => bigCharArea_lt
  | writeString => exact (drawsAt_drawString _ _ _ s).inside fun _ ⟨_, _, hj⟩ => charArea_lt hj
  | writeBigString => exact (drawsAt_drawBigString _ _ _ s).inside fun _ ⟨_, _, hj⟩ => bigCharArea_lt hj
  | init | invert | powerOff | powerOn | flush => exact nomatch hd

end Sys2Proof.Machine

/-! ## What the device commands do -/

namespace Sys2Proof.Machine

/-- `t` is `s` after `n` writes whose events, with any setup event, are `events`: all of them legal, `BUS_STATUS` at
their outcome, and nothing else written but the mirror flags. -/
structure Transfers (n : Nat) (events : List BusEvent) (s t : State) : Prop where
  onlyBus : t =
    { afterWrites n events s with
      initDone := t.initDone, powered := t.powered, inverted := t.inverted, busStatus := t.busStatus }
  outcome : t.busStatus = 1 ∨ t.busStatus = 2
  few : events.length ≤ 28
  legal : ∀ e ∈ events, legalEvent s.cfg e

theorem legalEvent_commandTransfer (c : Config) (b : Byte) (a : BusAnswer) :
    legalEvent c (.write c.devAddr (commandTransfer b) a) := .inr (.inl ⟨b, a, rfl⟩)

/-- Command bytes are sent as legal events, at most one each. -/
theorem sendCommands_events (bs : List Byte) (s : State) :
    ∃ n events, (sendCommands bs s).2 = afterWrites n events s ∧ events.length ≤ bs.length ∧
      ∀ e ∈ events, legalEvent s.cfg e := by
  induction bs generalizing s with
  | nil => exact ⟨0, [], by simp [sendCommands, afterWrites], le_rfl, by simp⟩
  | cons b bs ih =>
    have hfirst := legalEvent_commandTransfer s.cfg b (nextAnswer s)
    cases ha : nextAnswer s with
    | error =>
      refine ⟨1, [_], ?_, Nat.succ_le_succ (Nat.zero_le _), by simpa using hfirst⟩
      rw [← busWrite_eq_afterWrites]
      simp only [sendCommands, busWrite, ha]
    | ok =>
      obtain ⟨n, events, heq, hlen, hlegal⟩ := ih (busWrite (commandTransfer b) s).2
      refine ⟨1 + n, [_] ++ events, ?_, by simpa using hlen, List.forall_mem_cons.mpr ⟨hfirst, hlegal⟩⟩
      rw [← afterWrites_afterWrites, ← busWrite_eq_afterWrites, ← heq]
      simp only [sendCommands, busWrite, ha]

/-- Every byte is answered `ok` exactly when the last answer is. -/
theorem sendCommands_ok_iff (bs : List Byte) (s : State) :
    (sendCommands bs s).1 = .ok ↔ ∀ n < bs.length, answerAt s n = .ok := by
  induction bs generalizing s with
  | nil => simp [sendCommands]
  | cons b bs ih =>
    rw [List.length_cons, Nat.forall_lt_succ_left, ← nextAnswer_eq]
    simp only [← answerAt_busWrite (commandTransfer b), ← ih]
    cases ha : nextAnswer s <;> simp [sendCommands, busWrite, ha]

theorem transfers_initEffect (s : State) : ∃ n events, Transfers n events s (initEffect s) := by
  obtain ⟨n, events, heq, hlen, hlegal⟩ := sendCommands_events s.cfg.initBytes.toList (busSetup s)
  rw [busSetup_eq_afterWrites, afterWrites_afterWrites, ← busSetup_eq_afterWrites] at heq
  refine ⟨0 + n, [.setup s.cfg.busId s.cfg.busClkHz s.cfg.sdaPin s.cfg.sclPin] ++ events, ?_⟩
  constructor
  case onlyBus =>
    simp only [initEffect, heq]
    cases (sendCommands s.cfg.initBytes.toList (busSetup s)).1 <;> rfl
  case outcome =>
    simp only [initEffect]
    cases (sendCommands s.cfg.initBytes.toList (busSetup s)).1
    · exact .inl rfl
    · exact .inr rfl
  case few => simpa [Nat.lt_succ_iff] using hlen
  case legal => exact List.forall_mem_cons.mpr ⟨.inl rfl, hlegal⟩

theorem transfers_oneTransfer {bytes : List Byte} {f : State → State} {s : State}
    (hlegal : ∀ a, legalEvent s.cfg (.write s.cfg.devAddr bytes a))
    (hf : ∀ t, f t = { t with powered := (f t).powered, inverted := (f t).inverted }) :
    ∃ n events, Transfers n events s (oneTransfer bytes f s) := by
  refine ⟨1, [.write s.cfg.devAddr bytes (nextAnswer s)], ?_, ?_, by simp, by simpa using hlegal _⟩
  · rw [← busWrite_eq_afterWrites]
    cases ha : nextAnswer s with
    | ok => rw [oneTransfer_ok ha, hf]
    | error => rw [oneTransfer_error ha]
  · cases ha : nextAnswer s with
    | ok => rw [oneTransfer_ok ha]; exact .inl rfl
    | error => rw [oneTransfer_error ha]; exact .inr rfl

theorem legalEvent_fbBytes (s : State) (a : BusAnswer) :
    legalEvent s.cfg (.write s.cfg.devAddr (dataTransfer (fbBytes s)) a) :=
  .inr (.inr ⟨fbBytes s, a, rfl, by simp [fbBytes]⟩)

/-- A device command writes bus events and mirror flags only (20_memory.md R57). -/
theorem effect_transfers {i : Instr} (hd : isDrawing i = false) (s : State) :
    ∃ n events, Transfers n events s (effect i s) := by
  cases i with
  | init => exact transfers_initEffect s
  | invert | powerOff | powerOn =>
    exact transfers_oneTransfer (legalEvent_commandTransfer _ _) fun _ => rfl
  | flush => exact transfers_oneTransfer (legalEvent_fbBytes s) fun _ => rfl
  | clear | setPixel | getPixel | drawLine | writeChar | writeBigChar | writeString | writeBigString =>
    exact nomatch hd

end Sys2Proof.Machine

/-! ## POWERED and INVERTED (10_state.md R25, R26) -/

namespace Sys2Proof.Machine

/-- INIT's 27 transfers are all answered `ok`. -/
def initAnswered (s : State) : Bool := (List.range 27).all fun n => decide (answerAt s n = .ok)

/-- The one transfer of a device command is sent and answered `ok`. -/
def sentAnswered (s : State) : Bool := decide (s.initDone = true ∧ answerAt s 0 = .ok)

/-- The value command `i` writes to `POWERED`, if it writes one. -/
def powerWritten (i : Instr) (s : State) : Option Bool :=
  match i with
  | .init => if initAnswered s then some true else none
  | .powerOff => if sentAnswered s then some false else none
  | .powerOn => if sentAnswered s then some true else none
  | _ => none

/-- The value command `i` writes to `INVERTED`, if it writes one. -/
def polarityWritten (i : Instr) (s : State) : Option Bool :=
  match i with
  | .init => if initAnswered s then some false else none
  | .invert w => if sentAnswered s then some w else none
  | _ => none

/-- `s` with other values of the two flags. -/
def withFlags (p v : Bool) (s : State) : State := { s with powered := p, inverted := v }

@[simp] theorem withFlags_cfg (p v : Bool) (s : State) : (withFlags p v s).cfg = s.cfg := rfl

/-- A loop whose body does not depend on the two flags does not either. -/
theorem foldl_withFlags {α : Type} (p v : Bool) (f : State → α → State)
    (hf : ∀ s a, f (withFlags p v s) a = withFlags p v (f s a)) (l : List α) (s : State) :
    l.foldl f (withFlags p v s) = withFlags p v (l.foldl f s) :=
  List.foldl_hom (withFlags p v) hf

theorem drawChar_withFlags (x y : Nat) (ch : Byte) (p v : Bool) (s : State) :
    drawChar x y ch (withFlags p v s) = withFlags p v (drawChar x y ch s) := by
  unfold drawChar
  rw [withFlags_cfg]
  split
  · rfl
  · exact foldl_withFlags p v _ (fun _ _ => rfl) _ s

theorem drawBigChar_withFlags (x y : Nat) (ch : Byte) (p v : Bool) (s : State) :
    drawBigChar x y ch (withFlags p v s) = withFlags p v (drawBigChar x y ch s) := by
  unfold drawBigChar
  rw [withFlags_cfg]
  split
  · rfl
  · exact foldl_withFlags p v _ (fun _ _ => rfl) _ s

theorem drawString_withFlags (x y : Nat) (chars : List Byte) (p v : Bool) (s : State) :
    drawString x y chars (withFlags p v s) = withFlags p v (drawString x y chars s) := by
  unfold drawString
  rw [withFlags_cfg]
  split
  · rfl
  · exact foldl_withFlags p v _ (fun t _ => drawChar_withFlags _ _ _ p v t) _ s

theorem drawBigString_withFlags (x y : Nat) (chars : List Byte) (p v : Bool) (s : State) :
    drawBigString x y chars (withFlags p v s) = withFlags p v (drawBigString x y chars s) := by
  unfold drawBigString
  rw [withFlags_cfg]
  split
  · rfl
  · exact foldl_withFlags p v _ (fun t _ => drawBigChar_withFlags _ _ _ p v t) _ s

/-- Sending command bytes neither reads nor writes the two flags. -/
theorem sendCommands_withFlags (bs : List Byte) (p v : Bool) (s : State) :
    sendCommands bs (withFlags p v s) = ((sendCommands bs s).1, withFlags p v (sendCommands bs s).2) := by
  induction bs generalizing s with
  | nil => rfl
  | cons b bs ih =>
    have hwrite : busWrite (commandTransfer b) (withFlags p v s) =
        (nextAnswer s, withFlags p v (busWrite (commandTransfer b) s).2) := rfl
    rw [sendCommands, sendCommands, hwrite, ← busWrite_fst (commandTransfer b) s]
    cases busWrite (commandTransfer b) s with
    | mk a t =>
      cases a with
      | ok => exact ih t
      | error => rfl

theorem initAnswered_iff (s : State) :
    initAnswered s = true ↔ (sendCommands s.cfg.initBytes.toList (busSetup s)).1 = .ok := by
  rw [sendCommands_ok_iff]
  simp [initAnswered]

theorem initEffect_withFlags (p v : Bool) (s : State) :
    initEffect (withFlags p v s) =
      withFlags ((powerWritten .init s).getD p) ((polarityWritten .init s).getD v) (initEffect s) := by
  have hsetup : busSetup (withFlags p v s) = withFlags p v (busSetup s) := rfl
  have hok := initAnswered_iff s
  simp only [initEffect, hsetup, withFlags_cfg, sendCommands_withFlags, powerWritten, polarityWritten]
  cases ha : (sendCommands s.cfg.initBytes.toList (busSetup s)).1 with
  | ok => rw [if_pos (hok.mpr ha), if_pos (hok.mpr ha)]; rfl
  | error =>
    have hno : ¬initAnswered s = true := fun h => nomatch ha.symm.trans (hok.mp h)
    rw [if_neg hno, if_neg hno]
    rfl

/-- One transfer does not read the two flags; what it writes to them rests on the reply alone. -/
theorem oneTransfer_withFlags {bytes : List Byte} {f : State → State} {s : State} {p v : Bool} {pw vw : Option Bool}
    (hok : nextAnswer s = .ok → ∀ t, f (withFlags p v t) = withFlags (pw.getD p) (vw.getD v) (f t))
    (herr : nextAnswer s = .error → pw = none ∧ vw = none) :
    oneTransfer bytes f (withFlags p v s) = withFlags (pw.getD p) (vw.getD v) (oneTransfer bytes f s) := by
  have hw : (busWrite bytes (withFlags p v s)).2 = withFlags p v (busWrite bytes s).2 := rfl
  cases ha : nextAnswer s with
  | ok =>
    rw [oneTransfer_ok ha, oneTransfer_ok (s := withFlags p v s) ha, hw, hok ha]
    rfl
  | error =>
    obtain ⟨rfl, rfl⟩ := herr ha
    rw [oneTransfer_error ha, oneTransfer_error (s := withFlags p v s) ha, hw]
    rfl

theorem sentAnswered_of_initDone {s : State} (h : s.initDone = true) :
    sentAnswered s = decide (nextAnswer s = .ok) := by
  simp [sentAnswered, h, nextAnswer_eq]

theorem effect_withFlags {i : Instr} {s : State} (hf : faultOf i s = none) (p v : Bool) :
    effect i (withFlags p v s) =
      withFlags ((powerWritten i s).getD p) ((polarityWritten i s).getD v) (effect i s) := by
  cases i with
  | clear | setPixel | getPixel => rfl
  | drawLine => exact foldl_withFlags p v _ (fun _ _ => rfl) _ s
  | writeChar => exact drawChar_withFlags _ _ _ p v s
  | writeBigChar => exact drawBigChar_withFlags _ _ _ p v s
  | writeString => exact drawString_withFlags _ _ _ p v s
  | writeBigString => exact drawBigString_withFlags _ _ _ p v s
  | init => exact initEffect_withFlags p v s
  | invert | powerOff | powerOn | flush =>
    have hinit : s.initDone = true := by simpa [faultOf] using hf
    refine oneTransfer_withFlags (fun hok t => ?_) fun herr => ?_
    · simp [powerWritten, polarityWritten, sentAnswered_of_initDone hinit, hok, withFlags]
    · simp [powerWritten, polarityWritten, sentAnswered_of_initDone hinit, herr]

theorem faultOf_withFlags (i : Instr) (p v : Bool) (s : State) : faultOf i (withFlags p v s) = faultOf i s := by
  cases i <;> rfl

/-- A command that faults writes neither flag. -/
theorem flagsWritten_of_fault {i : Instr} {s : State} {cause : FaultCause} (h : faultOf i s = some cause) :
    powerWritten i s = none ∧ polarityWritten i s = none := by
  have hsent : s.initDone = false → sentAnswered s = false := fun h => by simp [sentAnswered, h]
  rcases faultOf_cases h with ⟨-, ⟨x, y, v, rfl⟩ | ⟨x, y, rfl⟩⟩ | ⟨-, x0, y0, x1, y1, v, rfl⟩ |
    ⟨-, hinit, ⟨v, rfl⟩ | rfl | rfl | rfl⟩
  · exact ⟨rfl, rfl⟩
  · exact ⟨rfl, rfl⟩
  · exact ⟨rfl, rfl⟩
  all_goals simp [powerWritten, polarityWritten, hsent hinit]

/-- No command reads the two flags: with other values of them its next state differs in them alone, and there only
where the command writes neither. -/
theorem nextState_withFlags (i : Instr) (p v : Bool) (s : State) :
    nextState i (withFlags p v s) =
      withFlags ((powerWritten i s).getD p) ((polarityWritten i s).getD v) (nextState i s) := by
  cases hf : faultOf i s with
  | none =>
    rw [nextState_of_noFault ((faultOf_withFlags i p v s).trans hf), nextState_of_noFault hf, effect_withFlags hf]
    rfl
  | some cause =>
    obtain ⟨hp, hv⟩ := flagsWritten_of_fault hf
    rw [nextState_of_fault ((faultOf_withFlags i p v s).trans hf), nextState_of_fault hf, hp, hv]
    rfl

theorem nextState_powered (i : Instr) (s : State) : (nextState i s).powered = (powerWritten i s).getD s.powered :=
  congrArg State.powered (nextState_withFlags i s.powered s.inverted s)

theorem nextState_inverted (i : Instr) (s : State) :
    (nextState i s).inverted = (polarityWritten i s).getD s.inverted :=
  congrArg State.inverted (nextState_withFlags i s.powered s.inverted s)

/-- Settles O60: the next state is `nextState`, and `nextState_withFlags` says how it depends on the two flags. -/
theorem noCommandReadsPowerOrPolarity : Obligations.NoCommandReadsPowerOrPolarity := by
  intro i s p v
  refine ⟨nextState i s, exec_eq i s, ?_, ?_, ?_⟩
  · exact (nextState_powered i s).trans (by cases i <;> rfl)
  · exact (nextState_inverted i s).trans (by cases i <;> rfl)
  · refine (exec_eq i (withFlags p v s)).trans ?_
    rw [nextState_withFlags]
    cases i <;> rfl

end Sys2Proof.Machine

/-! ## Which registers a command writes -/

namespace Sys2Proof.Machine

/-- A command that takes no fault draws, reads a pixel, or makes bus transfers. -/
theorem effect_cases {i : Instr} {s : State} (hf : faultOf i s = none) :
    (isDrawing i = true ∧ (∀ x y, i ≠ .getPixel x y) ∧ DrawsInside s (effect i s)) ∨
      (∃ x y, i = .getPixel x y ∧ effect i s = { s with pixOut := pixel s x.toNat y.toNat }) ∨
      (isDrawing i = false ∧ ∃ n events, Transfers n events s (effect i s)) := by
  cases hd : isDrawing i with
  | false => exact .inr (.inr ⟨rfl, effect_transfers hd s⟩)
  | true =>
    by_cases hg : ∃ x y, i = .getPixel x y
    · obtain ⟨x, y, rfl⟩ := hg
      exact .inr (.inl ⟨x, y, rfl, rfl⟩)
    · have hg' : ∀ x y, i ≠ .getPixel x y := fun x y hi => hg ⟨x, y, hi⟩
      exact .inl ⟨rfl, hg', effect_drawsInside hd hg' hf⟩

/-- The registers no command's effect writes. -/
structure SameControl (s t : State) : Prop where
  cfg : t.cfg = s.cfg
  port : t.port = s.port
  csp : t.csp = s.csp
  fbEpoch : t.fbEpoch = s.fbEpoch
  faulted : t.faulted = s.faulted
  faultCause : t.faultCause = s.faultCause
  faultCmd : t.faultCmd = s.faultCmd
  faultPos : t.faultPos = s.faultPos

theorem DrawsInside.sameControl {s t : State} (h : DrawsInside s t) : SameControl s t := by
  rw [h.onlyFb]
  constructor <;> rfl

theorem Transfers.sameControl {n : Nat} {events : List BusEvent} {s t : State} (h : Transfers n events s t) :
    SameControl s t := by
  rw [h.onlyBus]
  constructor <;> rfl

theorem Transfers.busLog {n : Nat} {events : List BusEvent} {s t : State} (h : Transfers n events s t) :
    t.busLog = s.busLog ++ events := by
  rw [h.onlyBus]
  rfl

theorem Transfers.fb {n : Nat} {events : List BusEvent} {s t : State} (h : Transfers n events s t) : t.fb = s.fb := by
  rw [h.onlyBus]
  rfl

theorem Transfers.pixOut {n : Nat} {events : List BusEvent} {s t : State} (h : Transfers n events s t) :
    t.pixOut = s.pixOut := by
  rw [h.onlyBus]
  rfl

theorem effect_sameControl {i : Instr} {s : State} (hf : faultOf i s = none) : SameControl s (effect i s) := by
  rcases effect_cases hf with ⟨-, -, h⟩ | ⟨x, y, -, h⟩ | ⟨-, n, events, h⟩
  · exact h.sameControl
  · rw [h]
    constructor <;> rfl
  · exact h.sameControl

theorem oneTransfer_initDone {bytes : List Byte} {f : State → State} {s : State}
    (hf : ∀ t, (f t).initDone = t.initDone) : (oneTransfer bytes f s).initDone = s.initDone := by
  cases ha : nextAnswer s with
  | ok => rw [oneTransfer_ok ha]; exact hf _
  | error => rw [oneTransfer_error ha]; rfl

theorem effect_initDone {i : Instr} {s : State} (hf : faultOf i s = none) (hi : i ≠ .init) :
    (effect i s).initDone = s.initDone := by
  rcases effect_cases hf with ⟨-, -, h⟩ | ⟨x, y, -, h⟩ | ⟨hd, -⟩
  · rw [h.onlyFb]
  · rw [h]
  · cases i with
    | invert | powerOff | powerOn | flush => exact oneTransfer_initDone fun _ => rfl
    | init => exact absurd rfl hi
    | clear | setPixel | getPixel | drawLine | writeChar | writeBigChar | writeString | writeBigString =>
      exact nomatch hd

theorem effect_busStatus {i : Instr} {s : State} (hf : faultOf i s = none) :
    (effect i s).busStatus = s.busStatus ∨
      isDrawing i = false ∧ ((effect i s).busStatus = 1 ∨ (effect i s).busStatus = 2) := by
  rcases effect_cases hf with ⟨-, -, h⟩ | ⟨x, y, -, h⟩ | ⟨hd, n, events, h⟩
  · exact .inl (by rw [h.onlyFb])
  · exact .inl (by rw [h])
  · exact .inr ⟨hd, h.outcome⟩

theorem effect_pixOut {i : Instr} {s : State} (hf : faultOf i s = none) :
    (effect i s).pixOut = s.pixOut ∨ ∃ x y, i = .getPixel x y := by
  rcases effect_cases hf with ⟨-, -, h⟩ | ⟨x, y, hi, -⟩ | ⟨-, n, events, h⟩
  · exact .inl (by rw [h.onlyFb])
  · exact .inr ⟨x, y, hi⟩
  · exact .inl h.pixOut

theorem effect_fb {i : Instr} {s : State} (hf : faultOf i s = none) :
    (effect i s).fb = s.fb ∨ isDrawing i = true ∧ ∀ x y, i ≠ .getPixel x y := by
  rcases effect_cases hf with ⟨hd, hg, -⟩ | ⟨x, y, -, h⟩ | ⟨-, n, events, h⟩
  · exact .inr ⟨hd, hg⟩
  · exact .inl (by rw [h])
  · exact .inl h.fb

theorem effect_busLog {i : Instr} {s : State} (hf : faultOf i s = none) :
    (effect i s).busLog = s.busLog ∨ isDrawing i = false := by
  rcases effect_cases hf with ⟨-, -, h⟩ | ⟨x, y, -, h⟩ | ⟨hd, -⟩
  · exact .inl (by rw [h.onlyFb])
  · exact .inl (by rw [h])
  · exact .inr hd

theorem powerWritten_eq_none {i : Instr} (h : ¬(i = .init ∨ i = .powerOff ∨ i = .powerOn)) (s : State) :
    powerWritten i s = none := by
  cases i with
  | init | powerOff | powerOn => simp at h
  | _ => rfl

theorem polarityWritten_eq_none {i : Instr} (h : ¬(i = .init ∨ ∃ v, i = .invert v)) (s : State) :
    polarityWritten i s = none := by
  cases i with
  | init | invert => simp at h
  | _ => rfl

/-- Settles O59: a fault writes the fault entry alone (`faultOf_cases` says which), and without one each register is
read off the command's effect. -/
theorem registersAreWrittenOnlyByTheirCommands : Obligations.RegistersAreWrittenOnlyByTheirCommands := by
  intro i s t h
  obtain rfl := exec_next_iff.mp h
  have hpow : (nextState i s).powered ≠ s.powered → i = .init ∨ i = .powerOff ∨ i = .powerOn := by
    refine not_imp_comm.mp fun hi => ?_
    rw [nextState_powered, powerWritten_eq_none hi]
    rfl
  have hinv : (nextState i s).inverted ≠ s.inverted → i = .init ∨ ∃ v, i = .invert v := by
    refine not_imp_comm.mp fun hi => ?_
    rw [nextState_inverted, polarityWritten_eq_none hi]
    rfl
  cases hf : faultOf i s with
  | some cause =>
    rw [nextState_of_fault hf] at hpow hinv ⊢
    exact ⟨absurd rfl, hpow, hinv, absurd rfl, absurd rfl, absurd rfl, absurd rfl, rfl, rfl, rfl,
      .inl ⟨cause, rfl, faultOf_cases hf⟩⟩
  | none =>
    rw [nextState_of_noFault hf] at hpow hinv ⊢
    have hc := effect_sameControl hf
    exact ⟨not_imp_comm.mp (effect_initDone hf), hpow, hinv, (effect_busStatus hf).resolve_left,
      (effect_pixOut hf).resolve_left, (effect_fb hf).resolve_left, (effect_busLog hf).resolve_left,
      hc.port, hc.cfg, hc.fbEpoch,
      .inr ⟨hc.faulted, hc.faultCause, hc.faultCmd, hc.faultPos, congrArg (· + _) hc.csp⟩⟩

end Sys2Proof.Machine

/-! ## What one step can do -/

namespace Sys2Proof.Machine

theorem port_getElem?_csp {s : State} {w : Word} {ps : List Word} (h : wordsAtCsp s = w :: ps) :
    s.port[s.csp]? = some w := by
  rw [← List.head?_drop]
  exact congrArg List.head? h

/-- An illegal verdict is about the first word. -/
theorem decode_illegal {ws : List Word} {why : Illegal} {w0 : Word} (h : decode ws = .illegal why w0) :
    ∃ ps, ws = w0 :: ps := by
  cases ws with
  | nil => exact nomatch h
  | cons w ps =>
    simp only [decode] at h
    split at h
    · exact ⟨ps, by rw [(Decoded.illegal.inj h).2]⟩
    · split at h <;> exact nomatch h

/-- What a step from `s` that ends in `t` made of the word `w` at `csp`: the fault entry, or the effect of the command
`w` begins and a move of `csp` past that command's words, which are all present. -/
inductive StepOn (s : State) (w : Word) : State → Prop
  | fault (cause : FaultCause) : StepOn s w (raiseFault cause w s)
  | ran (i : Instr) (hf : faultOf i s = none) (hport : s.csp + commandLength w ≤ s.port.length) :
      StepOn s w (advance (commandLength w) (effect i s))

/-- A step is taken without a fault latched, on the word at `csp`. -/
theorem stepOn_of_step {s t : State} (h : step s = .next t) :
    s.faulted = false ∧ ∃ w, s.port[s.csp]? = some w ∧ StepOn s w t := by
  obtain ⟨hf, ⟨i, rest, hd, he⟩ | ⟨why, w, hd, rfl⟩⟩ := step_cases h
  · obtain ⟨w, ps, o, hws, hw, hps, rfl, -⟩ := decode_instr hd
    have hlen : (encode (operandsOf o w ps)).length = commandLength w := by
      rw [length_encode_operandsOf, payloadWords_commandLength hw]
    have hport : s.csp + commandLength w ≤ s.port.length := by
      have := congrArg List.length hws
      rw [wordsAtCsp, List.length_drop, List.length_cons] at this
      rw [payloadWords_commandLength hw]
      omega
    refine ⟨hf, w, port_getElem?_csp hws, ?_⟩
    rw [exec_next_iff] at he
    subst he
    cases hc : faultOf (operandsOf o w ps) s with
    | some cause =>
      rw [nextState_of_fault hc, firstWord_operandsOf hw]
      exact .fault cause
    | none =>
      rw [nextState_of_noFault hc, hlen]
      exact .ran _ hc hport
  · obtain ⟨ps, hws⟩ := decode_illegal hd
    exact ⟨hf, w, port_getElem?_csp hws, .fault _⟩

/-- Settles O12: by what a step makes of the word at `csp`. -/
theorem stepMovesCspByTheLength : Obligations.StepMovesCspByTheLength := by
  intro s t h
  obtain ⟨hf, w, hw, hstep⟩ := stepOn_of_step h
  cases hstep with
  | fault cause => exact ⟨rfl, rfl, .inl ⟨rfl, rfl⟩⟩
  | ran i hc =>
    have hs := effect_sameControl hc
    exact ⟨hs.port, hs.cfg, .inr ⟨hs.faulted.trans hf, w, hw, congrArg (· + _) hs.csp⟩⟩

/-- A command's effect appends to `BUSLOG`. -/
theorem effect_appends {i : Instr} {s : State} (hf : faultOf i s = none) :
    ∃ events, (effect i s).busLog = s.busLog ++ events ∧ events.length ≤ 28 := by
  rcases effect_cases hf with ⟨-, -, h⟩ | ⟨x, y, -, h⟩ | ⟨-, n, events, h⟩
  · exact ⟨[], by rw [h.onlyFb, List.append_nil], Nat.zero_le _⟩
  · exact ⟨[], by rw [h, List.append_nil], Nat.zero_le _⟩
  · exact ⟨events, h.busLog, h.few⟩

theorem hostAct_busLog (a : HostAction) (s : State) : (hostAct a s).busLog = s.busLog := by
  cases a <;> rfl

/-- Settles O22: a step appends its command's events, a fault and the agents' actions append none. -/
theorem busLogOnlyGrows : Obligations.BusLogOnlyGrows := by
  intro s t h
  cases h with
  | mfr _ h =>
    obtain ⟨-, w, -, hstep⟩ := stepOn_of_step h
    cases hstep with
    | fault cause => exact ⟨[], (List.append_nil _).symm, Nat.zero_le _⟩
    | ran i hc => exact effect_appends hc
  | host a => exact ⟨[], by rw [hostAct_busLog, List.append_nil], Nat.zero_le _⟩

/-! ## The invariant -/

theorem inv_launch (c : Config) : Inv (State.launch c) where
  fbSorted := List.Pairwise.nil
  fbInside := by simp [State.launch]
  cspInside := Nat.le_refl _
  busStatusLegal := by simp [State.launch]
  mirrorNeedsTransfer := by simp [State.launch]
  quietFault _ := ⟨rfl, rfl, rfl⟩
  latchedFault := by simp [State.launch]
  busLegal := by simp [State.launch]

theorem FaultCause.code_bounds (cause : FaultCause) : 1 ≤ cause.code.toNat ∧ cause.code.toNat ≤ 5 := by
  cases cause <;> decide

theorem inv_raiseFault {s : State} (h : Inv s) {w : Word} (hw : s.port[s.csp]? = some w) (cause : FaultCause) :
    Inv (raiseFault cause w s) where
  fbSorted := h.fbSorted
  fbInside := h.fbInside
  cspInside := h.cspInside
  busStatusLegal := h.busStatusLegal
  mirrorNeedsTransfer := h.mirrorNeedsTransfer
  quietFault := nofun
  latchedFault _ := ⟨cause.code_bounds, hw, rfl⟩
  busLegal := h.busLegal

/-- A move of `csp` inside the stream of a machine without a fault. -/
theorem inv_advance {s : State} (h : Inv s) {n : Nat} (hf : s.faulted = false) (hn : s.csp + n ≤ s.port.length) :
    Inv (advance n s) where
  fbSorted := h.fbSorted
  fbInside := h.fbInside
  cspInside := hn
  busStatusLegal := h.busStatusLegal
  mirrorNeedsTransfer := h.mirrorNeedsTransfer
  quietFault := h.quietFault
  latchedFault hf' := absurd (hf.symm.trans hf') nofun
  busLegal := h.busLegal

theorem inv_of_drawsInside {s t : State} (h : Inv s) (ht : DrawsInside s t) : Inv t := by
  have hwf := ht.keepsWf h.fbSorted
  have hbelow := ht.keepsBelow h.fbInside
  rw [ht.onlyFb]
  exact { h with fbSorted := hwf, fbInside := hbelow }

theorem inv_of_transfers {n : Nat} {events : List BusEvent} {s t : State} (h : Inv s) (ht : Transfers n events s t) :
    Inv t := by
  obtain ⟨honly, hout, -, hlegal⟩ := ht
  generalize t.initDone = a, t.powered = b, t.inverted = c, t.busStatus = d at honly hout
  have hstatus : d ≠ 3 ∧ d ≠ 0 := by rcases hout with rfl | rfl <;> decide
  subst honly
  exact {
    fbSorted := h.fbSorted
    fbInside := h.fbInside
    cspInside := h.cspInside
    busStatusLegal := hstatus.1
    mirrorNeedsTransfer := fun _ => hstatus.2
    quietFault := h.quietFault
    latchedFault := h.latchedFault
    busLegal := List.forall_mem_append.mpr ⟨h.busLegal, hlegal⟩ }

theorem inv_effect {i : Instr} {s : State} (h : Inv s) (hf : faultOf i s = none) : Inv (effect i s) := by
  rcases effect_cases hf with ⟨-, -, ht⟩ | ⟨x, y, -, ht⟩ | ⟨-, n, events, ht⟩
  · exact inv_of_drawsInside h ht
  · rw [ht]
    exact { h with }
  · exact inv_of_transfers h ht

theorem inv_of_step {s t : State} (h : Inv s) (ht : step s = .next t) : Inv t := by
  obtain ⟨hf, w, hw, hstep⟩ := stepOn_of_step ht
  cases hstep with
  | fault cause => exact inv_raiseFault h hw cause
  | ran i hc hport =>
    have hs := effect_sameControl hc
    exact inv_advance (inv_effect h hc) (hs.faulted.trans hf) (by rw [hs.csp, hs.port]; exact hport)

theorem inv_hostAct {s : State} (h : Inv s) (a : HostAction) : Inv (hostAct a s) := by
  cases a with
  | supply ws =>
    exact { h with
      cspInside := by
        simp only [hostAct, supplyWords_csp, supplyWords_port, List.length_append]
        exact Nat.le_add_right_of_le h.cspInside
      latchedFault := fun hf => by
        obtain ⟨hcause, hcmd, hpos⟩ := h.latchedFault hf
        obtain ⟨hlt, -⟩ := List.getElem?_eq_some_iff.mp hcmd
        exact ⟨hcause, (List.getElem?_append_left hlt).trans hcmd, hpos⟩ }
  | answer replies => exact { h with }
  | assertReset => exact { inv_launch s.cfg with busLegal := h.busLegal }

theorem inv_of_move {s t : State} (hm : Move s t) (h : Inv s) : Inv t := by
  cases hm with
  | mfr _ ht => exact inv_of_step h ht
  | host a => exact inv_hostAct h a

theorem cfg_of_move {s t : State} (hm : Move s t) : t.cfg = s.cfg := by
  cases hm with
  | mfr _ ht => exact (stepMovesCspByTheLength s t ht).2.1
  | host a => cases a <;> rfl

/-- Settles O21: the launch has the invariant, and every move keeps it and the configuration. -/
theorem reachableStatesKeepInvariantAndConfiguration : Obligations.ReachableStatesKeepInvariantAndConfiguration := by
  intro c s hr
  induction hr with
  | launch => exact ⟨inv_launch c, rfl⟩
  | move s t _ hm ih =>
    obtain ⟨hinv, hcfg⟩ := ih
    exact ⟨inv_of_move hm hinv, (cfg_of_move hm).trans hcfg⟩

end Sys2Proof.Machine

/-! ## The status port -/

namespace Sys2Proof.Machine

/-- A bit of the status word is a bit of one of its fields, or reserved (10_state.md R34). -/
theorem statusWord_bit (s : State) {k : Nat} (hk : k < 32) :
    (statusWord s).getLsbD k =
      if k = 0 then s.initDone
      else if k = 1 then s.powered
      else if k = 2 then s.inverted
      else if k = 3 then s.faulted
      else if k < 8 then s.faultCause.getLsbD (k - 4)
      else if k = 8 then s.pixOut
      else s.busStatus.getLsbD (k - 9) := by
  simp only [statusWord, BitVec.getLsbD_append]
  interval_cases k <;> simp

theorem statusWord_faultCause (s : State) : (statusWord s).extractLsb' 4 4 = s.faultCause := by
  refine BitVec.eq_of_getLsbD_eq fun k hk => ?_
  rw [BitVec.getLsbD_extractLsb', statusWord_bit s (by omega)]
  simp (disch := omega) only [if_neg, if_pos, hk, Nat.add_sub_cancel_left, decide_true, Bool.true_and]

theorem statusWord_busStatus (s : State) : (statusWord s).extractLsb' 9 2 = s.busStatus := by
  refine BitVec.eq_of_getLsbD_eq fun k hk => ?_
  rw [BitVec.getLsbD_extractLsb', statusWord_bit s (by omega)]
  simp (disch := omega) only [if_neg, hk, Nat.add_sub_cancel_left, decide_true, Bool.true_and]

theorem statusWord_reserved (s : State) : (statusWord s).extractLsb' 11 21 = 0 := by
  refine BitVec.eq_of_getLsbD_eq fun k hk => ?_
  rw [BitVec.getLsbD_extractLsb', statusWord_bit s (by omega)]
  simp (disch := omega) only [if_neg, hk, decide_true, Bool.true_and, BitVec.getLsbD_of_ge]
  exact BitVec.getLsbD_zero.symm

/-- Settles O24: bit by bit, and field by field where a field is wider. -/
theorem statusPortLayout : Obligations.StatusPortLayout := fun s =>
  ⟨statusWord_bit s (by decide), statusWord_bit s (by decide), statusWord_bit s (by decide),
    statusWord_bit s (by decide), statusWord_faultCause s, statusWord_bit s (by decide), statusWord_busStatus s,
    statusWord_reserved s, rfl, rfl⟩

end Sys2Proof.Machine

/-! ## Every step keeps the invariant -/

namespace Sys2Proof.Machine

/-- Settles O19: a step is a fault entry on the word at `csp`, or a command's effect and a move of `csp` inside the
stream; `inv_of_step` keeps the invariant along both. -/
theorem stepKeepsInvariant : Obligations.StepKeepsInvariant := fun _ _ => inv_of_step

end Sys2Proof.Machine

/-! ## Pixels and framebuffer bits (20_memory.md R51, R52) -/

namespace Sys2Proof.Machine

theorem bitIndex_lt (y : Nat) : bitIndex y < 8 := Nat.mod_lt y (by decide)

theorem columnOf_lt (c : Config) (i : Nat) : columnOf c i < c.W := Nat.mod_lt i (Nat.zero_lt_of_lt c.W_ge)

theorem rowOf_lt {c : Config} {i b : Nat} (hi : i < 8 * c.W) (hb : b < 8) : rowOf c i b < 64 := by
  have hpage : i / c.W < 8 := Nat.div_lt_of_lt_mul (by rwa [Nat.mul_comm])
  unfold rowOf
  omega

/-- Byte `i` stands in page `i / W`. -/
theorem page_rowOf (c : Config) (i : Nat) {b : Nat} (hb : b < 8) : page (rowOf c i b) = i / c.W := by
  unfold page rowOf
  omega

theorem bitIndex_rowOf (c : Config) (i : Nat) {b : Nat} (hb : b < 8) : bitIndex (rowOf c i b) = b := by
  unfold bitIndex rowOf
  omega

theorem columnOf_byteIndex {c : Config} {x : Nat} (hx : x < c.W) (y : Nat) : columnOf c (byteIndex c x y) = x :=
  Nat.mul_add_mod_of_lt hx

/-- The byte of pixel `(x, y)` lies in the page of row `y`. -/
theorem byteIndex_div {c : Config} {x : Nat} (hx : x < c.W) (y : Nat) : byteIndex c x y / c.W = page y := by
  rw [byteIndex, Nat.mul_comm, Nat.mul_add_div (Nat.zero_lt_of_lt hx), Nat.div_eq_of_lt hx, Nat.add_zero]

theorem rowOf_byteIndex {c : Config} {x : Nat} (hx : x < c.W) (y : Nat) :
    rowOf c (byteIndex c x y) (bitIndex y) = y := by
  rw [rowOf, byteIndex_div hx]
  exact Nat.div_add_mod y 8

theorem byteIndex_columnOf_rowOf (c : Config) (i : Nat) {b : Nat} (hb : b < 8) :
    byteIndex c (columnOf c i) (rowOf c i b) = i := by
  rw [byteIndex, page_rowOf c i hb]
  exact Nat.div_add_mod' i c.W

/-- Settles O25: the formulas hold by definition, and the two maps are inverse to each other because page and column
of a byte are the quotient and the remainder of its index by `W`. -/
theorem pixelsAndBitsCorrespond : Obligations.PixelsAndBitsCorrespond := by
  refine fun c => ⟨fun _ _ => ⟨rfl, rfl⟩, fun _ _ => ⟨rfl, rfl⟩, fun x y hx hy => ?_, fun i b hi hb => ?_⟩
  · have hlt : byteIndex c x y < 8 * c.W := c.fbLen_eq ▸ byteIndex_lt c ((inRange_iff c x y).mpr ⟨hx, hy⟩)
    exact ⟨hlt, bitIndex_lt y, columnOf_byteIndex hx y, rowOf_byteIndex hx y⟩
  · exact ⟨columnOf_lt c i, rowOf_lt hi hb, byteIndex_columnOf_rowOf c i hb, bitIndex_rowOf c i hb⟩

end Sys2Proof.Machine

/-! ## Drawing and device commands (20_memory.md R55, R57) -/

namespace Sys2Proof.Machine

theorem faultOf_of_drawing {i : Instr} {s : State} {cause : FaultCause} (hd : isDrawing i = true)
    (hf : faultOf i s = some cause) : cause = .pixelRange ∨ cause = .lineRange := by
  rcases faultOf_cases hf with ⟨h, -⟩ | ⟨h, -⟩ | ⟨-, -, ⟨v, rfl⟩ | rfl | rfl | rfl⟩
  · exact .inl h
  · exact .inr h
  all_goals exact nomatch hd

/-- A drawing command's effect is in the framebuffer and `PIXOUT`. -/
theorem effect_of_drawing {i : Instr} {s : State} (hd : isDrawing i = true) (hf : faultOf i s = none) :
    effect i s = { s with fb := (effect i s).fb, pixOut := (effect i s).pixOut } := by
  rcases effect_cases hf with ⟨-, -, h⟩ | ⟨x, y, rfl, -⟩ | ⟨hdev, -⟩
  · rw [h.onlyFb]
  · rfl
  · exact nomatch hd.symm.trans hdev

/-- Neither a fault entry nor bus transfers reach the framebuffer or `PIXOUT`. -/
theorem nextState_of_device {i : Instr} (hd : isDrawing i = false) (s : State) :
    (nextState i s).fb = s.fb ∧ (nextState i s).fbEpoch = s.fbEpoch ∧ (nextState i s).pixOut = s.pixOut := by
  cases hf : faultOf i s with
  | some cause =>
    rw [nextState_of_fault hf]
    exact ⟨rfl, rfl, rfl⟩
  | none =>
    rw [nextState_of_noFault hf]
    obtain ⟨n, events, h⟩ := effect_transfers hd s
    exact ⟨h.fb, h.sameControl.fbEpoch, h.pixOut⟩

theorem nextState_of_drawing {i : Instr} (hd : isDrawing i = true) (s : State) :
    nextState i s =
        { s with fb := (nextState i s).fb, pixOut := (nextState i s).pixOut, csp := (nextState i s).csp } ∨
      ∃ cause, (cause = .pixelRange ∨ cause = .lineRange) ∧ nextState i s = raiseFault cause i.firstWord s := by
  cases hf : faultOf i s with
  | some cause => exact .inr ⟨cause, faultOf_of_drawing hd hf, nextState_of_fault hf⟩
  | none =>
    rw [nextState_of_noFault hf, effect_of_drawing hd hf]
    exact .inl rfl

/-- Settles O58: the two kinds of command, each by its next state. -/
theorem drawingAndDeviceCommandsAreApart : Obligations.DrawingAndDeviceCommandsAreApart := by
  intro i s t h
  obtain rfl := exec_next_iff.mp h
  exact ⟨fun hd => nextState_of_drawing hd s, fun hd => nextState_of_device hd s⟩

end Sys2Proof.Machine

/-! ## Decoding and encoding (30_encoding.md R81 to R88) -/

namespace Sys2Proof

/-- A word that fails the check is illegal whatever follows it. -/
theorem decode_of_checkWord_error {w : Word} {why : Illegal} (h : checkWord w = .error why) (ps : List Word) :
    decode (w :: ps) = .illegal why w := by
  simp only [decode, h]

/-- A legal word with its payload decodes to the command of its opcode. -/
theorem decode_of_checkWord_ok {w : Word} {o : Op} {ps : List Word} (h : checkWord w = .ok o)
    (hps : o.payloadWords w ≤ ps.length) :
    decode (w :: ps) = .instr (operandsOf o w ps) (ps.drop (o.payloadWords w)) := by
  simp only [decode, h, if_neg (Nat.not_lt.mpr hps)]

theorem checkWord_of_reserved {w : Word} (h : opOf (fieldOP w) = none) : checkWord w = .error .opcode := by
  simp only [checkWord, h]

theorem checkWord_of_mustBeZero {w : Word} {o : Op} (hop : fieldOP w = o.code) (h : w &&& o.mustBeZero ≠ 0) :
    checkWord w = .error .reservedField := by
  simp only [checkWord, (opOf_iff _ o).mpr hop.symm, if_neg h]

theorem length_payloadOf (chars : List Byte) : (payloadOf chars).length = ceil8 chars.length := by
  simp [payloadOf]

/-- A command decoded from a legal word has as many payload words as that word tells. -/
theorem ceil8_chars_operandsOf (o : Op) (w : Word) (ps : List Word) :
    ceil8 (operandsOf o w ps).chars.length = o.payloadWords w :=
  Nat.add_left_cancel ((length_encode _).symm.trans (length_encode_operandsOf o w ps))

/-- The operands of a well-formed command are read back from its words. -/
theorem operandsOf_firstWord {i : Instr} (h : i.wellFormed = true) (rest : List Word) :
    operandsOf (Instr.op i) i.firstWord (payloadOf i.chars ++ rest) = i := by
  cases i with
  | writeString x y chars | writeBigString x y chars =>
    have hlen : chars.length % 256 = chars.length := Nat.mod_eq_of_lt (Nat.lt_succ_of_le (of_decide_eq_true h))
    simp [Instr.op, operandsOf, Instr.firstWord, Instr.chars, hlen, payloadChars_payloadOf]
  | _ => simp [Instr.op, operandsOf, Instr.firstWord]

/-- The first word of a well-formed command tells its payload. -/
theorem payloadWords_firstWord {i : Instr} (h : i.wellFormed = true) :
    (Instr.op i).payloadWords i.firstWord = ceil8 i.chars.length := by
  rw [← ceil8_chars_operandsOf _ _ (payloadOf i.chars ++ []), operandsOf_firstWord h]

/-- Settles O1: the first word is legal, tells the payload's length and gives the operands back. -/
theorem decodeOfEncode : Obligations.DecodeOfEncode := by
  intro i rest hi
  have hpay := payloadWords_firstWord hi
  have hle : (Instr.op i).payloadWords i.firstWord ≤ (payloadOf i.chars ++ rest).length := by
    rw [hpay, List.length_append, length_payloadOf]
    exact Nat.le_add_right _ _
  rw [encode, List.cons_append, decode_of_checkWord_ok (checkWord_firstWord i) hle, operandsOf_firstWord hi, hpay,
    List.drop_left' (length_payloadOf i.chars)]

/-- LEN, being a byte, keeps every decoded string within 255 characters. -/
theorem wellFormed_operandsOf (o : Op) (w : Word) (ps : List Word) : (operandsOf o w ps).wellFormed = true := by
  have hlen : (payloadChars (fieldLEN w).toNat ps).length ≤ 255 := by
    rw [length_payloadChars]
    exact Nat.le_of_lt_succ (fieldLEN w).isLt
  cases o with
  | writeString | writeBigString => exact decide_eq_true hlen
  | _ => rfl

/-- Settles O2: the word is the first word of its command, and what is left over follows the payload. -/
theorem decodedCommandKeepsItsFirstWord : Obligations.DecodedCommandKeepsItsFirstWord := by
  intro ws i rest h
  obtain ⟨w, ps, o, rfl, hw, hps, rfl, rfl⟩ := decode_instr h
  refine ⟨wellFormed_operandsOf o w ps, ps.take (o.payloadWords w), ?_, ?_⟩
  · rw [firstWord_operandsOf hw, List.take_append_drop]
  · rw [List.length_take_of_le hps]
    exact (ceil8_chars_operandsOf o w ps).symm

/-- Settles O3: by the OP field, then by the must-be-zero bits. -/
theorem decodingIsTotal : Obligations.DecodingIsTotal := by
  intro w op legal
  have hnone : opOf (fieldOP w) = none ↔ ¬legal := by rw [opOf_none, fieldOP_toNat]
  refine ⟨fun hreserved ps => ?_, fun hlegal => ?_⟩
  · exact decode_of_checkWord_error (checkWord_of_reserved (hnone.mpr hreserved)) ps
  · obtain ⟨o, ho⟩ := Option.ne_none_iff_exists'.mp fun h => hnone.mp h hlegal
    have hop : fieldOP w = o.code := ((opOf_iff _ _).mp ho).symm
    refine ⟨o, by rw [← hop, fieldOP_toNat], fun hbits ps => ?_, fun hzero ps hps => ?_⟩
    · exact decode_of_checkWord_error (checkWord_of_mustBeZero hop hbits) ps
    · exact decode_of_checkWord_ok ((checkWord_ok w o).mpr ⟨hop, hzero⟩) hps

/-- The OP field of a word, compared as a number. -/
theorem fieldOP_eq_iff (w : Word) (b : Byte) : fieldOP w = b ↔ w.toNat / 2 ^ 56 = b.toNat := by
  rw [← fieldOP_toNat, BitVec.toNat_inj]

/-- Settles O6: the words taken and the words of the encoding are both one and the payload the first word tells. -/
theorem firstWordTellsTheLength : Obligations.FirstWordTellsTheLength := by
  intro w ps i rest h
  obtain ⟨_, _, o, hws, hw, hps, rfl, rfl⟩ := decode_instr h
  obtain ⟨rfl, rfl⟩ := List.cons.inj hws
  refine ⟨?_, ?_, ?_⟩
  · rw [payloadWords_commandLength hw, List.length_cons, List.length_drop]
    omega
  · rw [length_encode_operandsOf, payloadWords_commandLength hw]
  · simp only [commandLength, fieldOP_eq_iff, ceil8, fieldLEN_toNat]
    rfl

end Sys2Proof

/-! ## The mask of an opcode and its match (30_encoding.md R83) -/

namespace Sys2Proof

/-- A word is its OP field and its other 56 bits. -/
theorem word_eq_iff (w w' : Word) :
    w = w' ↔ fieldOP w = fieldOP w' ∧ w.extractLsb' 0 56 = w'.extractLsb' 0 56 := by
  refine ⟨fun h => ⟨by rw [h], by rw [h]⟩, fun ⟨hop, hlow⟩ => ?_⟩
  calc w = fieldOP w ++ w.extractLsb' 0 56 := (BitVec.extractLsb'_append_extractLsb' (w := 8) (len := 56)).symm
    _ = fieldOP w' ++ w'.extractLsb' 0 56 := by rw [hop, hlow]
    _ = w' := BitVec.extractLsb'_append_extractLsb' (w := 8) (len := 56)

theorem fieldOP_and (w m : Word) : fieldOP (w &&& m) = fieldOP w &&& fieldOP m := BitVec.extractLsb'_and

/-- A must-be-zero mask leaves the OP field out, and 56 bits are left to it. -/
theorem mustBeZero_fields (o : Op) :
    fieldOP o.mustBeZero = 0 ∧ fieldOP ((0xFF00000000000000 : Word) ||| o.mustBeZero) = 0xFF ∧
      ((0xFF00000000000000 : Word) ||| o.mustBeZero).extractLsb' 0 56 = o.mustBeZero.extractLsb' 0 56 := by
  cases o <;> decide

theorem matchWord_fields (o : Op) :
    fieldOP ((o.code.setWidth 64 : Word) <<< 56) = o.code ∧
      ((o.code.setWidth 64 : Word) <<< 56).extractLsb' 0 56 = 0 := by
  cases o <;> decide

/-- The match rule of the opcode table: OP is compared in the upper byte, the must-be-zero bits below it. -/
theorem checkWord_ok_iff_match (w : Word) (o : Op) :
    checkWord w = .ok o ↔
      w &&& ((0xFF00000000000000 : Word) ||| o.mustBeZero) = (o.code.setWidth 64 : Word) <<< 56 := by
  obtain ⟨hmask, hop, hlow⟩ := mustBeZero_fields o
  obtain ⟨hcode, hrest⟩ := matchWord_fields o
  have hzero : w &&& o.mustBeZero = 0 ↔ w.extractLsb' 0 56 &&& o.mustBeZero.extractLsb' 0 56 = 0 := by
    rw [word_eq_iff, fieldOP_and, hmask, BitVec.extractLsb'_and]
    exact and_iff_right BitVec.and_zero
  rw [checkWord_ok, hzero, word_eq_iff, fieldOP_and, BitVec.extractLsb'_and, hop, hlow, hcode, hrest]
  exact and_congr_left' (by rw [show (0xFF : Byte) = BitVec.allOnes 8 from rfl, BitVec.and_allOnes])

namespace Machine

/-- An illegal word at `csp` is a fault entry with that word. -/
theorem step_of_checkWord_error {s : State} {w : Word} {why : Illegal} (hf : s.faulted = false)
    (hport : s.port[s.csp]? = some w) (hw : checkWord w = .error why) :
    step s = .next (raiseFault (illegalCause why) w s) := by
  obtain ⟨hlt, hget⟩ := List.getElem?_eq_some_iff.mp hport
  have hws : wordsAtCsp s = w :: s.port.drop (s.csp + 1) := by
    rw [wordsAtCsp, List.drop_eq_getElem_cons hlt, hget]
  simp only [step, fetch, hf, hws, decode_of_checkWord_error hw, Bool.false_eq_true, if_false]

end Machine

/-- Settles O4: the masks as the table writes them, the match rule by fields, the fault by the failing check. -/
theorem maskAndMatchSelectTheCommand : Obligations.MaskAndMatchSelectTheCommand :=
  ⟨rfl, checkWord_ok_iff_match, fun _ _ _ hf hport hop hbits =>
    Machine.step_of_checkWord_error hf hport (checkWord_of_mustBeZero hop hbits)⟩

end Sys2Proof

/-! ## Payload bytes (30_encoding.md R84) -/

namespace Sys2Proof.Machine

/-- Within the payload, character `j` is byte `j % 8` of word `j / 8`. -/
theorem payloadChars_getElem? {n j : Nat} {ps : List Word} (hj : j < n) (hps : ceil8 n ≤ ps.length) :
    ∃ p, ps[j / 8]? = some p ∧ (payloadChars n ps)[j]? = some ((p >>> (8 * (j % 8))).setWidth 8) := by
  have hlt : j / 8 < ps.length := by unfold ceil8 at hps; omega
  refine ⟨ps[j / 8], List.getElem?_eq_getElem hlt, ?_⟩
  rw [payloadChars, List.getElem?_map, List.getElem?_range hj, Option.map_some, charAt,
    List.getD_eq_getElem _ _ hlt]
  rfl

/-- A command that takes no fault moves `csp` past its words and latches none. -/
theorem exec_of_noFault {i : Instr} {s : State} (hf : faultOf i s = none) :
    ∃ t, exec i s = .next t ∧ t.csp = s.csp + (encode i).length ∧ t.faulted = s.faulted := by
  have hs := effect_sameControl hf
  refine ⟨advance (encode i).length (effect i s), ?_, congrArg (· + _) hs.csp, hs.faulted⟩
  rw [exec_eq, nextState_of_noFault hf]

/-- What R84 says of a string command of opcode `o`, whose command takes no fault in any state. -/
theorem decode_string {w : Word} {o : Op} {ps : List Word} (hw : checkWord w = .ok o)
    (hpay : o.payloadWords w = ceil8 (fieldLEN w).toNat) (hps : ceil8 (fieldLEN w).toNat ≤ ps.length)
    (hf : ∀ s, faultOf (operandsOf o w ps) s = none) :
    decode (w :: ps) = .instr (operandsOf o w ps) (ps.drop (ceil8 (fieldLEN w).toNat)) ∧
      ∀ s, ∃ t, exec (operandsOf o w ps) s = .next t ∧ t.csp = s.csp + (1 + ceil8 (fieldLEN w).toNat) ∧
        t.faulted = s.faulted := by
  rw [← hpay] at hps ⊢
  rw [← length_encode_operandsOf o w ps]
  exact ⟨decode_of_checkWord_ok hw hps, fun s => exec_of_noFault (hf s)⟩

/-- Settles O5: both string commands hold the payload's characters, and neither takes a fault. -/
theorem payloadBytesAreTheCharacters : Obligations.PayloadBytesAreTheCharacters := by
  intro w ps len hw hps
  have hlen : (fieldLEN w).toNat = len := fieldLEN_toNat w
  change ceil8 len ≤ ps.length at hps
  rw [← hlen] at hps ⊢
  rcases hw with hw | hw
  · exact ⟨_, _, .inl rfl, length_payloadChars _ ps, fun j hj => payloadChars_getElem? hj hps,
      decode_string hw rfl hps fun _ => rfl⟩
  · exact ⟨_, _, .inr rfl, length_payloadChars _ ps, fun j hj => payloadChars_getElem? hj hps,
      decode_string hw rfl hps fun _ => rfl⟩

end Sys2Proof.Machine

/-! ## Assembled lines (30_encoding.md R89 to R91) -/

namespace Sys2Proof.Machine

/-- The checked value is `a` when `fits` holds, and is refused otherwise. -/
def Accepts {α : Type} (checked : Option α) (fits : Prop) (a : α) : Prop :=
  (¬fits → checked = none) ∧ (fits → checked = some a)

theorem accepts_byteOperand (n : Nat) : Accepts (byteOperand n) (n < 256) (BitVec.ofNat 8 n) :=
  ⟨(byteOperand_eq_none_iff n).mpr, byteOperand_of_lt⟩

theorem accepts_bitOperand (n : Nat) : Accepts (bitOperand n) (n < 2) (n == 1) :=
  ⟨bitOperand_of_ge, bitOperand_of_lt⟩

theorem accepts_stringOperand (s : List Byte) : Accepts (stringOperand s) (s.length ≤ 255) s :=
  ⟨(stringOperand_eq_none_iff s).mpr, stringOperand_of_le⟩

theorem accepts_some {α : Type} (a : α) : Accepts (some a) True a :=
  ⟨fun h => absurd trivial h, fun _ => rfl⟩

/-- Of two checks in a row, the first refusal refuses the line. -/
theorem Accepts.bind {α β : Type} {c : Option α} {p q : Prop} {a : α} {f : α → Option β} {b : β}
    (hc : Accepts c p a) (hf : Accepts (f a) q b) : Accepts (c.bind f) (p ∧ q) b := by
  refine ⟨fun h => ?_, fun ⟨hp, hq⟩ => by rw [hc.2 hp]; exact hf.2 hq⟩
  by_cases hp : p
  · rw [hc.2 hp]
    exact hf.1 fun hq => h ⟨hp, hq⟩
  · rw [hc.1 hp]
    rfl

/-- The last check of a line. -/
theorem Accepts.last {α β : Type} {c : Option α} {p : Prop} {a : α} {f : α → β} (hc : Accepts c p a) :
    Accepts (c.bind fun x => some (f x)) p (f a) :=
  ⟨fun h => by rw [hc.1 h]; rfl, fun h => by rw [hc.2 h]; rfl⟩

/-- Byte `j` of payload word `k` is character `8 k + j`. -/
theorem payloadOf_byte {chars : List Byte} {k j : Nat} {p : Word} (hp : (payloadOf chars)[k]? = some p) (hj : j < 8) :
    (p >>> (8 * j)).setWidth 8 = chars.getD (8 * k + j) 0 := by
  obtain ⟨k', hk', rfl⟩ := Option.map_eq_some_iff.mp (List.getElem?_map.symm.trans hp)
  obtain rfl : k = k' := by simpa using (List.getElem?_eq_some_iff.mp hk').2
  exact payloadWord_byte chars k j hj

/-- A row of R89's table: a line that checks its operands and encodes a well-formed command. -/
theorem assembled_row {a : Asm} {fits : Prop} {i : Instr} {w : Word} (ha : Accepts (assemble a) fits (encode i))
    (hw : fits → i.firstWord = w) (hi : fits → i.wellFormed = true) :
    (¬fits → assemble a = none) ∧
      (fits → ∃ payload : List Word,
        assemble a = some (w :: payload) ∧ encode i = w :: payload ∧ decode (w :: payload) = .instr i [] ∧
        payload.length = (i.chars.length + 7) / 8 ∧
        ∀ (k j : Nat) (p : Word), payload[k]? = some p → j < 8 →
          (p >>> (8 * j)).setWidth 8 = i.chars.getD (8 * k + j) 0) := by
  refine ⟨ha.1, fun h => ⟨payloadOf i.chars, ?_⟩⟩
  have hwords : encode i = w :: payloadOf i.chars := by rw [encode, hw h]
  have hdecode := decodeOfEncode i [] (hi h)
  rw [List.append_nil, hwords] at hdecode
  exact ⟨hwords ▸ ha.2 h, hwords, hdecode, length_payloadOf i.chars, fun _ _ _ => payloadOf_byte⟩

/-- Settles O8: each row by its operand checks and the sum its first word is. -/
theorem assembledLinesDecode : Obligations.AssembledLinesDecode := by
  have h0 : 0 < 256 := by decide
  have hv0 : 0 < 2 := by decide
  refine ⟨assembled_row (accepts_some _) (fun _ => rfl) fun _ => rfl, fun x y v => ?_, fun x y => ?_,
    fun x0 y0 x1 y1 v => ?_, fun x y ch => ?_, fun x y ch => ?_, fun x y chars => ?_, fun x y chars => ?_,
    assembled_row (accepts_some _) (fun _ => rfl) fun _ => rfl, fun v => ?_,
    assembled_row (accepts_some _) (fun _ => rfl) fun _ => rfl,
    assembled_row (accepts_some _) (fun _ => rfl) fun _ => rfl,
    assembled_row (accepts_some _) (fun _ => rfl) fun _ => rfl, fun n => rfl⟩
  · refine assembled_row ((accepts_byteOperand x).bind ((accepts_byteOperand y).bind (accepts_bitOperand v).last))
      (fun ⟨hx, hy, hv⟩ => ?_) fun _ => rfl
    exact formatC_ofNat (by decide) h0 h0 hv h0 h0 hy hx
  · refine assembled_row ((accepts_byteOperand x).bind (accepts_byteOperand y).last)
      (fun ⟨hx, hy⟩ => ?_) fun _ => rfl
    exact formatC_ofNat (v := 0) (by decide) h0 h0 hv0 h0 h0 hy hx
  · refine assembled_row ((accepts_byteOperand x0).bind ((accepts_byteOperand y0).bind ((accepts_byteOperand x1).bind
      ((accepts_byteOperand y1).bind (accepts_bitOperand v).last))))
      (fun ⟨hx0, hy0, hx1, hy1, hv⟩ => ?_) fun _ => rfl
    exact formatC_ofNat (by decide) h0 h0 hv hy1 hx1 hy0 hx0
  · refine assembled_row ((accepts_byteOperand x).bind ((accepts_byteOperand y).bind (accepts_byteOperand ch).last))
      (fun ⟨hx, hy, hch⟩ => ?_) fun _ => rfl
    exact formatC_ofNat (v := 0) (by decide) h0 hch hv0 h0 h0 hy hx
  · refine assembled_row ((accepts_byteOperand x).bind ((accepts_byteOperand y).bind (accepts_byteOperand ch).last))
      (fun ⟨hx, hy, hch⟩ => ?_) fun _ => rfl
    exact formatC_ofNat (v := 0) (by decide) h0 hch hv0 h0 h0 hy hx
  · refine assembled_row ((accepts_byteOperand x).bind ((accepts_byteOperand y).bind
      (accepts_stringOperand chars).last)) (fun ⟨hx, hy, hs⟩ => ?_) fun ⟨_, _, hs⟩ => decide_eq_true hs
    exact formatC_ofNat (v := 0) (by decide) (Nat.lt_succ_of_le hs) h0 hv0 h0 h0 hy hx
  · refine assembled_row ((accepts_byteOperand x).bind ((accepts_byteOperand y).bind
      (accepts_stringOperand chars).last)) (fun ⟨hx, hy, hs⟩ => ?_) fun ⟨_, _, hs⟩ => decide_eq_true hs
    exact formatC_ofNat (v := 0) (by decide) (Nat.lt_succ_of_le hs) h0 hv0 h0 h0 hy hx
  · refine assembled_row (accepts_bitOperand v).last (fun hv => ?_) fun _ => rfl
    exact formatC_ofNat (by decide) h0 h0 hv h0 h0 h0 h0

/-- Settles O7: each line of the spec, read and decoded by evaluation. -/
theorem exampleWordsDecode : Obligations.ExampleWordsDecode := by
  unfold Obligations.ExampleWordsDecode
  decide

/-- Settles O9: each expansion by definition; NOP's string has no character to draw. -/
theorem pseudoInstructionsExpand : Obligations.PseudoInstructionsExpand := by
  refine ⟨by decide, fun _ _ _ _ => rfl, fun _ _ _ _ => rfl, fun _ _ => rfl, fun _ _ => rfl, rfl, fun s => ?_⟩
  have hdraw : effect (.writeString 0 0 []) s = s :=
    show (if clip8 s.cfg 0 0 then s else s) = s from ite_self s
  rw [exec_eq, nextState_of_noFault rfl, hdraw]
  rfl

end Sys2Proof.Machine

/-! ## Pixels (40_pixel.md) -/

namespace Sys2Proof.Machine

theorem exec_setPixel_of_inRange {x y : Byte} {on : Bool} {s : State} (h : inRange s.cfg x.toNat y.toNat = true) :
    exec (.setPixel x y on) s = .next (advance 1 (plot on s x.toNat y.toNat)) := if_pos h

theorem exec_getPixel_of_inRange {x y : Byte} {s : State} (h : inRange s.cfg x.toNat y.toNat = true) :
    exec (.getPixel x y) s = .next (advance 1 { s with pixOut := pixel s x.toNat y.toNat }) := if_pos h

/-- A pixel command outside the display takes the PIXEL_RANGE fault. -/
theorem exec_of_pixelFault {i : Instr} {s : State} (h : faultOf i s = some .pixelRange) :
    exec i s = .next (raiseFault .pixelRange i.firstWord s) := by
  rw [exec_eq, nextState_of_fault h]

/-! ### CLEAR and its write loop (R111) -/

/-- The loop of writes, on the list alone. -/
def Memory.zeroAll (l : List Nat) (m : Memory) : Memory := l.foldl (fun m i => m.write i 0) m

theorem foldl_memWrite_zero (l : List Nat) (s : State) :
    l.foldl (fun t i => memWrite t i 0) s = { s with fb := s.fb.zeroAll l } :=
  List.foldl_hom (fun m => { s with fb := m }) fun _ _ => rfl

theorem Memory.read_zeroAll (l : List Nat) (m : Memory) (k : Nat) :
    (m.zeroAll l).read k = if k ∈ l then some 0 else m.read k := by
  induction l generalizing m with
  | nil => rfl
  | cons i l ih =>
    refine (ih (m.write i 0)).trans ?_
    rw [Memory.read_write]
    by_cases hk : k = i <;> simp [hk]

theorem Memory.wf_zeroAll (l : List Nat) {m : Memory} (h : m.wf) : (m.zeroAll l).wf := by
  induction l generalizing m with
  | nil => exact h
  | cons i l ih => exact ih (Memory.wf_write h i 0)

/-- Nothing is listed past a bound of the listed indices. -/
theorem Memory.read_eq_none_of_below {m : Memory} {n k : Nat} (h : m.wf) (hb : m.below n) (hk : n ≤ k) :
    m.read k = none := by
  refine Option.eq_none_iff_forall_ne_some.mpr fun v hv => ?_
  exact Nat.not_lt.mpr hk (hb _ ((Memory.read_eq_some_iff h k v).mp hv))

/-- Both lists are canonical, and they read alike: 0 below `n` and nothing from there on. -/
theorem Memory.zeroAll_range {m : Memory} {n : Nat} (h : m.wf) (hb : m.below n) :
    m.zeroAll (List.range n) = Memory.zeros n := by
  refine Memory.ext_read (Memory.wf_zeroAll _ h) (Memory.wf_zeros n) fun k => ?_
  rw [Memory.read_zeroAll, Memory.read_zeros]
  by_cases hk : k < n
  · rw [if_pos (List.mem_range.mpr hk), if_pos hk]
  · rw [if_neg (mt List.mem_range.mp hk), if_neg hk]
    exact Memory.read_eq_none_of_below h hb (Nat.not_lt.mp hk)

/-- Settles O26: CLEAR's list lists every index below `8 * W` with byte 0. -/
theorem clearZeroesTheFramebuffer : Obligations.ClearZeroesTheFramebuffer := fun s =>
  ⟨(clearFb s).fb, rfl, fun _ hi => memRead_clearFb s (s.cfg.fbLen_eq ▸ hi)⟩

/-- Settles O27: the loop leaves the list that CLEAR fills (`Memory.zeroAll_range`). -/
theorem clearIsTheWriteLoop : Obligations.ClearIsTheWriteLoop := by
  intro s hwf hbelow
  rw [foldl_memWrite_zero, Memory.zeroAll_range hwf hbelow]
  rfl

/-! ### SET_PIXEL (R112, R113) -/

/-- Settles O28: the effect is one write (`plot`). -/
theorem setPixelWritesOneByte : Obligations.SetPixelWritesOneByte := by
  refine fun x y on s => ⟨fun hin => ?_, fun hout => ?_⟩
  · refine ⟨(plot on s x.toNat y.toNat).fb, exec_setPixel_of_inRange ((inRange_iff _ _ _).mpr hin), ?_, ?_⟩
    · exact memRead_memWrite_same s _ _
    · exact (drawsAt_plot on s x.toNat y.toNat).elsewhere
  · exact exec_of_pixelFault (if_neg (mt (inRange_iff _ _ _).mp hout))

/-- Two different bits of a byte are set or cleared in either order. -/
theorem withBit_comm (old : Byte) {b b' : Nat} (hb : b < 8) (hb' : b' < 8) (hne : b ≠ b') (v v' : Bool) :
    withBit (withBit old b v) b' v' = withBit (withBit old b' v') b v := by
  refine BitVec.eq_of_getLsbD_eq fun k _ => ?_
  simp only [withBit_bit, hb, hb']
  by_cases hk : k = b
  · rw [if_neg (hk ▸ hne), if_pos hk, if_pos hk]
  · rw [if_neg hk, if_neg hk]

theorem withBit_withBit_same (old : Byte) {b : Nat} (hb : b < 8) (v : Bool) :
    withBit (withBit old b v) b v = withBit old b v := by
  refine BitVec.eq_of_getLsbD_eq fun k _ => ?_
  rw [withBit_bit _ _ _ _ hb, withBit_bit _ _ _ _ hb]
  split <;> rfl

theorem memWrite_comm (s : State) {i j : Nat} (h : i ≠ j) (v w : Byte) :
    memWrite (memWrite s i v) j w = memWrite (memWrite s j w) i v :=
  congrArg (fun m => { s with fb := m }) (Memory.write_comm s.fb h v w)

@[simp] theorem memWrite_memWrite_same (s : State) (i : Nat) (v w : Byte) :
    memWrite (memWrite s i v) i w = memWrite s i w :=
  congrArg (fun m => { s with fb := m }) (Memory.write_write_same s.fb i v w)

/-- `plot` changes its own bit of its own byte and no other bit of the framebuffer. -/
theorem memRead_plot_bit (on : Bool) (s : State) (x y i b : Nat) :
    (memRead (plot on s x y) i).getLsbD b =
      if i = byteIndex s.cfg x y ∧ b = bitIndex y then on else (memRead s i).getLsbD b := by
  rw [plot, memRead_memWrite]
  by_cases hi : i = byteIndex s.cfg x y
  · simp only [hi, if_true, true_and, withBit_bit _ _ _ _ (bitIndex_lt y)]
  · rw [if_neg hi, if_neg (mt And.left hi)]

/-- Two pixels that differ lie in two bytes, whose writes commute, or in two bits of one byte. -/
theorem plot_comm {s : State} {x y x' y' : Nat} (hx : x < s.cfg.W) (hx' : x' < s.cfg.W) (hne : ¬(x = x' ∧ y = y'))
    (v v' : Bool) : plot v' (plot v s x y) x' y' = plot v (plot v' s x' y') x y := by
  by_cases hi : byteIndex s.cfg x y = byteIndex s.cfg x' y'
  · have hb : bitIndex y ≠ bitIndex y' := mt (pixel_address_inj s.cfg hx hx' hi) hne
    simp only [plot, memWrite_cfg, hi, memRead_memWrite_same, memWrite_memWrite_same,
      withBit_comm _ (bitIndex_lt y) (bitIndex_lt y') hb]
  · simp only [plot, memWrite_cfg, memRead_memWrite_ne _ _ hi, memRead_memWrite_ne _ _ (Ne.symm hi),
      memWrite_comm _ hi]

/-- Drawing does not read the command position. -/
theorem plot_advance (n : Nat) (on : Bool) (s : State) (x y : Nat) :
    plot on (advance n s) x y = advance n (plot on s x y) := rfl

theorem plot_plot_same (v : Bool) (s : State) (x y : Nat) : plot v (plot v s x y) x y = plot v s x y := by
  simp only [plot, memWrite_cfg, memRead_memWrite_same, memWrite_memWrite_same,
    withBit_withBit_same _ (bitIndex_lt y)]

theorem pixel_plot_same (v : Bool) (s : State) (x y : Nat) : pixel (plot v s x y) x y = v :=
  (memRead_plot_bit v s x y _ _).trans (if_pos ⟨rfl, rfl⟩)

/-- Settles O29: each law is a law of `plot`, and the `csp` that moves between the commands does not matter to it. -/
theorem setPixelLaws : Obligations.SetPixelLaws := by
  intro x y x' y' v v' s hx hy hx' hy'
  have hin : inRange s.cfg x.toNat y.toNat = true := (inRange_iff _ _ _).mpr ⟨hx, hy⟩
  have hin' : inRange s.cfg x'.toNat y'.toNat = true := (inRange_iff _ _ _).mpr ⟨hx', hy'⟩
  refine ⟨advance 1 (plot v s x.toNat y.toNat), exec_setPixel_of_inRange hin, pixel_plot_same v s _ _, ?_, ?_, ?_⟩
  · exact fun i b _ hother => (memRead_plot_bit v s _ _ i b).trans (if_neg hother)
  · intro hne
    have hne' : ¬(x.toNat = x'.toNat ∧ y.toNat = y'.toNat) := fun ⟨h, h'⟩ =>
      hne (Prod.ext (BitVec.eq_of_toNat_eq h) (BitVec.eq_of_toNat_eq h'))
    refine ⟨_, _, exec_setPixel_of_inRange hin', exec_setPixel_of_inRange hin', ?_⟩
    rw [exec_setPixel_of_inRange, plot_advance, plot_advance, plot_comm hx hx' hne']
    exact hin
  · rw [exec_setPixel_of_inRange, plot_advance, plot_plot_same]
    · rfl
    · exact hin

/-! ### GET_PIXEL (R114, R115) -/

/-- A bit, as the shift and the mask of R114 take it. -/
theorem getLsbD_eq_shift_and_one (b : Byte) (k : Nat) : b.getLsbD k = decide ((b >>> k) &&& 1 = 1) := by
  have hbit : (b >>> k).getLsbD 0 = b.getLsbD k := by rw [BitVec.getLsbD_ushiftRight, Nat.add_zero]
  rw [show (b >>> k) &&& 1 = _ from BitVec.and_one_eq_setWidth_ofBool_getLsbD, hbit]
  cases b.getLsbD k <;> decide

/-- Settles O30: `pixel` is the bit that R114's shift and mask take. -/
theorem getPixelReadsOneBit : Obligations.GetPixelReadsOneBit := by
  refine fun x y s => ⟨fun hin => ?_, fun hout => ?_⟩
  · rw [exec_getPixel_of_inRange ((inRange_iff _ _ _).mpr hin), ← getLsbD_eq_shift_and_one]
    rfl
  · exact exec_of_pixelFault (if_neg (mt (inRange_iff _ _ _).mp hout))

theorem pixel_clearFb {s : State} {x y : Nat} (h : inRange s.cfg x y = true) : pixel (clearFb s) x y = false := by
  rw [pixel, clearFb_cfg, memRead_clearFb s (byteIndex_lt s.cfg h)]
  exact BitVec.getLsbD_zero

/-- Settles O31: each read sees the `plot`, or the fill, before it. -/
theorem readsSeeWhatWasDrawn : Obligations.ReadsSeeWhatWasDrawn := by
  intro x y s hx hy
  have hin : inRange s.cfg x.toNat y.toNat = true := (inRange_iff _ _ _).mpr ⟨hx, hy⟩
  constructor
  · exact ⟨_, _, _, _, exec_setPixel_of_inRange hin, exec_getPixel_of_inRange hin, pixel_plot_same true s _ _,
      exec_setPixel_of_inRange hin, exec_getPixel_of_inRange hin, pixel_plot_same false _ _ _⟩
  · exact ⟨_, _, rfl, exec_getPixel_of_inRange hin, pixel_clearFb hin⟩

end Sys2Proof.Machine

/-! ## Lines (41_line.md) -/

namespace Sys2Proof.Machine

/-! ### The points of a line (R132) -/

theorem mem_linePoints_box {x0 y0 x1 y1 : Int} {p : Int × Int} (hp : p ∈ linePoints x0 y0 x1 y1) :
    min x0 x1 ≤ p.1 ∧ p.1 ≤ max x0 x1 ∧ min y0 y1 ≤ p.2 ∧ p.2 ≤ max y0 y1 := by
  obtain ⟨r, m, hr0, hr, hm0, hm, rfl⟩ := (loopPoints_linePoints x0 y0 x1 y1).box p hp
  simp only [stepSign]
  split_ifs <;> omega

theorem head?_linePoints (x0 y0 x1 y1 : Int) : (linePoints x0 y0 x1 y1).head? = some (x0, y0) := rfl

theorem length_linePoints (x0 y0 x1 y1 : Int) :
    (linePoints x0 y0 x1 y1).length = max (x1 - x0).natAbs (y1 - y0).natAbs + 1 := by
  have := (loopPoints_linePoints x0 y0 x1 y1).len
  omega

/-- No coordinate of a line between two points of the display is negative. -/
theorem nonneg_of_mem_linePoints {x0 y0 x1 y1 : Nat} {p : Int × Int} (hp : p ∈ linePoints x0 y0 x1 y1) :
    0 ≤ p.1 ∧ 0 ≤ p.2 := by
  have := mem_linePoints_box hp
  omega

/-- Settles O32: the first part is what `loopPoints_linePoints` says of the loop, and a line between two points of the
display stays on it. -/
theorem linePointsStayInTheBox : Obligations.LinePointsStayInTheBox := by
  refine ⟨fun x0 y0 x1 y1 => ?_, fun c x0 y0 x1 y1 hx0 hy0 hx1 hy1 p hp => ?_⟩
  · have h := loopPoints_linePoints x0 y0 x1 y1
    exact ⟨fun p => mem_linePoints_box, head?_linePoints x0 y0 x1 y1, h.last, length_linePoints x0 y0 x1 y1, h.nodup,
      h.chain⟩
  · have hin : inRange c p.1.toNat p.2.toNat = true :=
      inRange_of_mem_linePoints ((inRange_iff c x0 y0).mpr ⟨hx0, hy0⟩) ((inRange_iff c x1 y1).mpr ⟨hx1, hy1⟩) hp
    obtain ⟨hx, hy⟩ := nonneg_of_mem_linePoints hp
    obtain ⟨hxW, hyH⟩ := (inRange_iff c _ _).mp hin
    exact ⟨hx, hy, hxW, hyH, c.fbLen_eq ▸ byteIndex_lt c hin⟩

/-! ### The states of the loop (R131, R134) -/

/-- The body of the loop on a state `(x, y, err)`, after its plot: both tests compare the same `2 * err` (R134). -/
def lineStep (dx dy sx sy : Int) : Int × Int × Int → Int × Int × Int
  | (x, y, err) =>
    (if 2 * err ≥ dy then x + sx else x,
      if 2 * err ≤ dx then y + sy else y,
      err + (if 2 * err ≥ dy then dy else 0) + (if 2 * err ≤ dx then dx else 0))

/-- The states in which the loop plots, with the bound of `lineLoop`. -/
def lineStates (x1 y1 dx dy sx sy : Int) : Nat → Int × Int × Int → List (Int × Int × Int)
  | 0, _ => []
  | fuel + 1, q =>
    q :: if q.1 = x1 ∧ q.2.1 = y1 then [] else lineStates x1 y1 dx dy sx sy fuel (lineStep dx dy sx sy q)

/-- The loop plots the point of each of its states. -/
theorem lineLoop_eq_map_lineStates (x1 y1 dx dy sx sy : Int) (fuel : Nat) (x y err : Int) :
    lineLoop x1 y1 dx dy sx sy fuel x y err =
      (lineStates x1 y1 dx dy sx sy fuel (x, y, err)).map fun q => (q.1, q.2.1) := by
  induction fuel generalizing x y err with
  | zero => rfl
  | succ fuel ih =>
    rw [lineLoop, lineStates, List.map_cons]
    split
    · rfl
    · simp only [ih, lineStep, decide_eq_true_eq]

/-- A state that is followed by another is not at the endpoint, and the body of the loop leads to the next. -/
theorem isChain_lineStates (x1 y1 dx dy sx sy : Int) (fuel : Nat) (q : Int × Int × Int) :
    (lineStates x1 y1 dx dy sx sy fuel q).IsChain
      fun q r => ¬(q.1 = x1 ∧ q.2.1 = y1) ∧ r = lineStep dx dy sx sy q := by
  induction fuel generalizing q with
  | zero => exact List.isChain_nil
  | succ fuel ih =>
    rw [lineStates]
    split
    · exact List.isChain_singleton q
    · next hq =>
      refine List.isChain_cons.mpr ⟨fun r hr => ⟨hq, ?_⟩, ih _⟩
      cases fuel with
      | zero => exact nomatch hr
      | succ fuel => exact (Option.mem_some.mp hr).symm

/-- Settles O33: the sequence is `lineStates`, whose points are the line's, so it ends at the endpoint too. -/
theorem lineFollowsTheErrorRule : Obligations.LineFollowsTheErrorRule := by
  refine ⟨fun x0 y0 x1 y1 => ?_, by decide⟩
  simp only [Int.abs_eq_natAbs]
  have hmap := lineLoop_eq_map_lineStates x1 y1 (x1 - x0).natAbs (-(y1 - y0).natAbs) (stepSign x0 x1) (stepSign y0 y1)
    ((x1 - x0).natAbs + (y1 - y0).natAbs + 1) x0 y0 ((x1 - x0).natAbs + -(y1 - y0).natAbs)
  refine ⟨_, hmap, rfl, (isChain_lineStates ..).imp ?_, ?_⟩
  · rintro q r ⟨hq, rfl⟩
    exact ⟨hq, rfl, rfl, rfl⟩
  · have hlast := (loopPoints_linePoints x0 y0 x1 y1).last
    rw [linePoints, hmap, List.getLast?_map] at hlast
    obtain ⟨⟨x, y, err⟩, hq, hxy⟩ := Option.map_eq_some_iff.mp hlast
    obtain ⟨rfl, rfl⟩ := Prod.mk.inj hxy
    exact ⟨err, hq⟩

/-! ### DRAW_LINE (R135, R137) -/

theorem exec_drawLine_of_inRange {x0 y0 x1 y1 : Byte} {on : Bool} {s : State}
    (h0 : inRange s.cfg x0.toNat y0.toNat = true) (h1 : inRange s.cfg x1.toNat y1.toNat = true) :
    exec (.drawLine x0 y0 x1 y1 on) s =
      .next (advance 1 (plotAll on s (linePoints x0.toNat y0.toNat x1.toNat y1.toNat))) :=
  if_pos (Bool.and_eq_true_iff.mpr ⟨h0, h1⟩)

theorem exec_drawLine_of_not_inRange {x0 y0 x1 y1 : Byte} {on : Bool} {s : State}
    (h : ¬(inRange s.cfg x0.toNat y0.toNat = true ∧ inRange s.cfg x1.toNat y1.toNat = true)) :
    exec (.drawLine x0 y0 x1 y1 on) s =
      .next (raiseFault .lineRange (Instr.drawLine x0 y0 x1 y1 on).firstWord s) :=
  if_neg (mt Bool.and_eq_true_iff.mp h)

/-- Settles O34: in range the effect is `plotAll` of points that all lie on the display. -/
theorem drawLinePlotsItsPoints : Obligations.DrawLinePlotsItsPoints := by
  intro x0 y0 x1 y1 on s
  refine ⟨fun ⟨hx0, hy0, hx1, hy1⟩ => ?_, fun hout => ?_⟩
  · have h0 : inRange s.cfg x0.toNat y0.toNat = true := (inRange_iff _ _ _).mpr ⟨hx0, hy0⟩
    have h1 : inRange s.cfg x1.toNat y1.toNat = true := (inRange_iff _ _ _).mpr ⟨hx1, hy1⟩
    have hdraws := drawsAt_plotAll on s (linePoints x0.toNat y0.toNat x1.toNat y1.toNat)
    refine ⟨(plotAll on s (linePoints x0.toNat y0.toNat x1.toNat y1.toNat)).fb, ?_, fun px py hpx _ => ?_,
      fun j hj => ?_⟩
    · rw [exec_drawLine_of_inRange h0 h1, hdraws.onlyFb]
      rfl
    · rw [← hdraws.onlyFb]
      refine pixel_plotAll on s _ px py hpx fun p hp => ?_
      obtain ⟨hx, hy⟩ := nonneg_of_mem_linePoints hp
      exact ⟨hx, hy, ((inRange_iff _ _ _).mp (inRange_of_mem_linePoints h0 h1 hp)).1⟩
    · rw [← hdraws.onlyFb]
      exact hdraws.elsewhere j fun ⟨p, hp, hjp⟩ => hj p hp hjp
  · refine exec_drawLine_of_not_inRange fun ⟨h0, h1⟩ => hout ?_
    obtain ⟨hx0, hy0⟩ := (inRange_iff _ _ _).mp h0
    exact ⟨hx0, hy0, (inRange_iff _ _ _).mp h1⟩

/-- The loop returns after its first plot when the start is the endpoint. -/
theorem linePoints_self (x y : Int) : linePoints x y x y = [(x, y)] := by
  rw [linePoints, lineLoop, if_pos ⟨rfl, rfl⟩]

/-- Settles O35: the one point is in range exactly when both endpoints are, and `plotAll` of it is `plot`. -/
theorem degenerateLineIsSetPixel : Obligations.DegenerateLineIsSetPixel := by
  refine fun x y on s => ⟨linePoints_self _ _, fun hin => ?_, fun hout => ?_⟩
  · have hin' : inRange s.cfg x.toNat y.toNat = true := (inRange_iff _ _ _).mpr hin
    refine ⟨_, exec_drawLine_of_inRange hin' hin', ?_⟩
    rw [exec_setPixel_of_inRange hin', linePoints_self]
    rfl
  · have hout' : ¬inRange s.cfg x.toNat y.toNat = true := mt (inRange_iff _ _ _).mp hout
    exact ⟨exec_drawLine_of_not_inRange fun h => hout' h.1, exec_of_pixelFault (if_neg hout')⟩

/-! ### Vertical and horizontal lines (R133, R136, R138) -/

/-- The values of the one coordinate that moves, from `a` by steps of `s` until `a1`, with the bound of `lineLoop`. -/
def axisWalk (a1 s : Int) : Nat → Int → List Int
  | 0, _ => []
  | fuel + 1, a => a :: if a = a1 then [] else axisWalk a1 s fuel (a + s)

/-- With `dx = 0` the error stays at `dy`, below both bounds: the loop walks along its column (R133). -/
theorem lineLoop_of_dx_zero {x y y1 dy : Int} (h : dy < 0 ∨ y = y1) (sx sy : Int) (fuel : Nat) :
    lineLoop x y1 0 dy sx sy fuel x y dy = (axisWalk y1 sy fuel y).map fun b => (x, b) := by
  induction fuel generalizing y with
  | zero => rfl
  | succ fuel ih =>
    rw [lineLoop, axisWalk]
    by_cases hy : y = y1
    · simp [hy]
    · have hdy : dy < 0 := h.resolve_right hy
      have hgoX : ¬2 * dy ≥ dy := by omega
      have hgoY : 2 * dy ≤ 0 := by omega
      simp [hy, hgoX, hgoY, ih (.inl hdy)]

/-- With `dy = 0` the error stays at `dx`, above both bounds: the loop walks along its row (R133). -/
theorem lineLoop_of_dy_zero {x y x1 dx : Int} (h : 0 < dx ∨ x = x1) (sx sy : Int) (fuel : Nat) :
    lineLoop x1 y dx 0 sx sy fuel x y dx = (axisWalk x1 sx fuel x).map fun a => (a, y) := by
  induction fuel generalizing x with
  | zero => rfl
  | succ fuel ih =>
    rw [lineLoop, axisWalk]
    by_cases hx : x = x1
    · simp [hx]
    · have hdx : 0 < dx := h.resolve_right hx
      have hgoX : 2 * dx ≥ 0 := by omega
      have hgoY : ¬2 * dx ≤ dx := by omega
      simp [hx, hgoX, hgoY, ih (.inl hdx)]

/-- Settles O36: the walk along a column or a row does not name the other coordinate's step sign. -/
theorem stepSignOfAZeroDifferenceIsIrrelevant : Obligations.StepSignOfAZeroDifferenceIsIrrelevant := by
  refine ⟨fun x y0 y1 sx sx' fuel => ?_, fun x0 x1 y sy sy' fuel => ?_, linePoints_self⟩
  · have hcol : -|y1 - y0| < 0 ∨ y0 = y1 := by
      rw [neg_lt_zero, abs_pos]
      omega
    simp only [lineLoop_of_dx_zero hcol, true_and]
    exact List.forall_mem_map.mpr fun _ _ => rfl
  · have hrow : 0 < |x1 - x0| ∨ x0 = x1 := by
      rw [abs_pos]
      omega
    simp only [lineLoop_of_dy_zero hrow, true_and]
    exact List.forall_mem_map.mpr fun _ _ => rfl

/-- Settles O37: both lines, run. -/
theorem lineIsNotSymmetric : Obligations.LineIsNotSymmetric := by
  constructor <;> decide

/-- Settles O38: three lines run, and the degenerate line has its one point (`linePoints_self`). -/
theorem lineLawsOfTheSource : Obligations.LineLawsOfTheSource := by
  refine ⟨by decide, by decide, by decide, fun x y => ?_⟩
  rw [linePoints_self, List.length_singleton]

end Sys2Proof.Machine

/-! ## Glyph bits and indices (42_glyph.md R151, R153, R160, R162) -/

namespace Sys2Proof.Machine

theorem reverse8_reverse8 (b : Byte) : reverse8 (reverse8 b) = b := by
  refine BitVec.eq_of_getLsbD_eq fun k hk => ?_
  rw [reverse8_bit _ _ hk, reverse8_bit _ _ (by omega), show 7 - (7 - k) = k by omega]

/-- Concatenation is positional: the right part is the low one. -/
theorem toNat_append_eq_add {m n : Nat} (a : BitVec m) (b : BitVec n) :
    (a ++ b).toNat = 2 ^ n * a.toNat + b.toNat := by
  rw [BitVec.toNat_append, ← Nat.shiftLeft_add_eq_or_of_lt b.isLt, Nat.shiftLeft_eq, Nat.mul_comm]

theorem toNat_doubledBit_shifted (g : Byte) (k : Nat) :
    (if g.getLsbD k then 3 * 2 ^ (2 * k) else 0) = (doubledBit g k).toNat * 2 ^ (2 * k) := by
  unfold doubledBit
  cases g.getLsbD k
  · exact (Nat.zero_mul _).symm
  · rfl

/-- The doubled byte is the sum of its doubled bits at their places (R160). -/
theorem toNat_double16 (g : Byte) :
    (double16 g).toNat = ((List.range 8).map fun k => if g.getLsbD k then 3 * 2 ^ (2 * k) else 0).sum := by
  simp only [toNat_doubledBit_shifted, double16, toNat_append_eq_add, List.range_succ, List.range_zero, List.map_append,
    List.map_cons, List.map_nil, List.sum_append, List.sum_cons, List.sum_nil]
  omega

/-- Settles O39: both operations bit by bit, the sum of R160, and the rules' examples run. -/
theorem reverseAndDoubleBits : Obligations.ReverseAndDoubleBits := by
  refine ⟨reverse8_bit, reverse8_reverse8, by decide, by decide, by decide, by decide, fun g k hk => ⟨?_, ?_⟩,
    toNat_double16, by decide⟩
  · rw [double16_bit g _ (by omega), show 2 * k / 2 = k by omega]
  · rw [double16_bit g _ (by omega), show (2 * k + 1) / 2 = k by omega]

theorem glyphIndex_of_upper {ch : Byte} (h : 0x41 ≤ ch.toNat ∧ ch.toNat ≤ 0x5A) : glyphIndex ch = ch.toNat - 0x40 := by
  have hup : up ch.toNat = ch.toNat := if_neg (by omega)
  simp only [glyphIndex, hup]
  rw [if_pos h]

theorem glyphIndex_of_lower {ch : Byte} (h : 0x61 ≤ ch.toNat ∧ ch.toNat ≤ 0x7A) : glyphIndex ch = ch.toNat - 0x60 := by
  have hup : up ch.toNat = ch.toNat - 0x20 := if_pos h
  simp only [glyphIndex, hup]
  rw [if_pos (by omega)]
  omega

theorem glyphIndex_of_digit {ch : Byte} (h : 0x30 ≤ ch.toNat ∧ ch.toNat ≤ 0x39) :
    glyphIndex ch = ch.toNat - 0x30 + 27 := by
  have hup : up ch.toNat = ch.toNat := if_neg (by omega)
  simp only [glyphIndex, hup]
  rw [if_neg (by omega), if_pos h]

theorem glyphIndex_of_other {ch : Byte} (hupper : ¬(0x41 ≤ ch.toNat ∧ ch.toNat ≤ 0x5A))
    (hlower : ¬(0x61 ≤ ch.toNat ∧ ch.toNat ≤ 0x7A)) (hdigit : ¬(0x30 ≤ ch.toNat ∧ ch.toNat ≤ 0x39)) :
    glyphIndex ch = 0 := by
  have hup : up ch.toNat = ch.toNat := if_neg hlower
  simp only [glyphIndex, hup]
  rw [if_neg hupper, if_neg hdigit]

/-- Settles O40: one lemma for each range of codes. -/
theorem glyphIndexOfEveryCode : Obligations.GlyphIndexOfEveryCode := fun _ =>
  ⟨glyphIndex_of_upper, glyphIndex_of_lower, glyphIndex_of_digit, glyphIndex_of_other⟩

/-- A lower-case letter has the glyph of the code 0x20 less. -/
theorem glyphIndex_sub_of_lower {ch : Byte} (h : 0x61 ≤ ch.toNat ∧ ch.toNat ≤ 0x7A) :
    glyphIndex (ch - 0x20) = glyphIndex ch := by
  have hsub : (ch - 0x20).toNat = ch.toNat - 0x20 := BitVec.toNat_sub_of_le (show 0x20 ≤ ch.toNat by omega)
  rw [glyphIndex_of_upper (by omega), glyphIndex_of_lower h]
  omega

theorem lowByte_eq_setWidth (d : BitVec 16) : lowByte d = d.setWidth 8 :=
  (BitVec.setWidth_eq_extractLsb' (by decide)).symm

theorem highByte_eq_setWidth (d : BitVec 16) : highByte d = (d >>> 8).setWidth 8 :=
  BitVec.setWidth_ushiftRight_eq_extractLsb.symm

theorem lowByte_bit (d : BitVec 16) {k : Nat} (hk : k < 8) : (lowByte d).getLsbD k = d.getLsbD k := by
  simp [lowByte, hk]

theorem highByte_bit (d : BitVec 16) {k : Nat} (hk : k < 8) : (highByte d).getLsbD k = d.getLsbD (8 + k) := by
  simp [highByte, hk]

end Sys2Proof.Machine

/-! ## Clip bounds (42_glyph.md R154, R156, R163) -/

namespace Sys2Proof.Machine

theorem clip8_eq_false_iff (c : Config) (x y : Nat) : clip8 c x y = false ↔ ¬(x > c.W - 8 ∨ y > 56) := by
  rw [← clip8_iff, Bool.not_eq_true]

theorem clip16_eq_false_iff (c : Config) (x y : Nat) : clip16 c x y = false ↔ ¬(x > c.W - 16 ∨ y > 48) := by
  rw [← clip16_iff, Bool.not_eq_true]

/-- An origin to the right of one that fails its bound fails it too. -/
theorem clip8_mono {c : Config} {x x' y : Nat} (hx : x ≤ x') (h : clip8 c x y = true) : clip8 c x' y = true := by
  rw [clip8_iff] at *
  omega

theorem clip16_mono {c : Config} {x x' y : Nat} (hx : x ≤ x') (h : clip16 c x y = true) : clip16 c x' y = true := by
  rw [clip16_iff] at *
  omega

/-- No display reaches column 256. -/
theorem clip8_of_ge {c : Config} {x : Nat} (hx : 256 ≤ x) (y : Nat) : clip8 c x y = true := by
  have hW := c.W_le
  rw [clip8_iff]
  omega

theorem clip16_of_ge {c : Config} {x : Nat} (hx : 256 ≤ x) (y : Nat) : clip16 c x y = true := by
  have hW := c.W_le
  rw [clip16_iff]
  omega

/-- Settles O42: the columns by the bound on `x`, the pages by the bound on `y` and the glyph areas' own bound. -/
theorem glyphsStayInTheirPages : Obligations.GlyphsStayInTheirPages := by
  refine fun c x y => ⟨fun hc => ?_, fun hc => ?_⟩
  · have hW := c.W_ge
    have hclip := (clip8_eq_false_iff c x y).mp hc
    refine ⟨by omega, by omega, fun k hk => ⟨by omega, by omega, ?_⟩⟩
    exact c.fbLen_eq ▸ charArea_lt ⟨hc, k, hk, rfl⟩
  · have hW := c.W_ge
    have hclip := (clip16_eq_false_iff c x y).mp hc
    refine ⟨by omega, by omega, fun k hk => ⟨by omega, by omega, ?_⟩⟩
    exact c.fbLen_eq ▸ bigCharArea_lt ⟨hc, k, hk, .inr rfl⟩

end Sys2Proof.Machine

/-! ## Glyphs (42_glyph.md R155, R157, R162, R164) -/

namespace Sys2Proof.Machine

/-- Drawing and then moving `csp` changes the framebuffer and `csp`. -/
theorem DrawsAt.advance_eq {A : Nat → Prop} {s t : State} (h : DrawsAt A s t) (n : Nat) :
    advance n t = { s with fb := t.fb, csp := s.csp + n } := by
  rw [h.onlyFb]
  rfl

theorem DrawsAt.memRead_fb {A : Nat → Prop} {s t : State} (h : DrawsAt A s t) (i : Nat) :
    memRead { s with fb := t.fb } i = memRead t i := by
  rw [← h.onlyFb]

/-- The bit of a byte that row `k` of its page shows. -/
theorem pixel_row (s : State) (x p : Nat) {k : Nat} (hk : k < 8) :
    pixel s x (8 * p + k) = (memRead s (p * s.cfg.W + x)).getLsbD k := by
  have hp : page (8 * p + k) = p := by
    unfold page
    omega
  have hb : bitIndex (8 * p + k) = k := by
    unfold bitIndex
    omega
  rw [pixel, byteIndex, hp, hb]

theorem pixel_advance (n : Nat) (s : State) (x y : Nat) : pixel (advance n s) x y = pixel s x y := rfl

/-! ### The normal glyph -/

theorem exec_writeChar (x y ch : Byte) (s : State) :
    exec (.writeChar x y ch) s = .next (advance 1 (drawChar x.toNat y.toNat ch s)) := rfl

theorem exec_writeChar_of_clip {x y : Byte} (ch : Byte) {s : State} (h : x.toNat > s.cfg.W - 8 ∨ y.toNat > 56) :
    exec (.writeChar x y ch) s = .next (advance 1 s) := by
  rw [exec_writeChar, drawChar_of_clip ((clip8_iff _ _ _).mpr h)]

/-- Settles O41: the eight bytes are those `memRead_drawChar` reads, and `drawsAt_drawChar` is the frame. -/
theorem writeCharDrawsOneGlyph : Obligations.WriteCharDrawsOneGlyph := by
  refine ⟨fun c => ⟨fun k _ => fontRom_zero c k, fun g k hg hk => fontRom_succ c hg hk, fun _ _ => rfl⟩,
    fun x y ch s => ⟨exec_writeChar_of_clip ch, fun h => ?_⟩⟩
  have hc : clip8 s.cfg x.toNat y.toNat = false := (clip8_eq_false_iff _ _ _).mpr h
  have hdraws := drawsAt_drawChar x.toNat y.toNat ch s
  refine ⟨_, congrArg _ (hdraws.advance_eq 1), fun c hc8 => ?_, fun hupper hlower hdigit c hc8 => ?_, fun j hj => ?_⟩
  · exact (hdraws.memRead_fb _).trans (memRead_drawChar hc hc8)
  · refine (hdraws.memRead_fb _).trans ((memRead_drawChar hc hc8).trans ?_)
    rw [glyphIndex_of_other hupper hlower hdigit, glyphByte_zero]
  · rw [hdraws.memRead_fb]
    exact hdraws.elsewhere j fun ⟨_, k, hk, hjk⟩ => hj k hk hjk

theorem pixel_drawChar {x y : Nat} {ch : Byte} {s : State} (hclip : clip8 s.cfg x y = false) {c k : Nat} (hc : c < 8)
    (hk : k < 8) :
    pixel (drawChar x y ch s) (x + c) (8 * page y + k) = (glyphByte s.cfg (glyphIndex ch) c).getLsbD k := by
  rw [pixel_row _ _ _ hk, (drawsAt_drawChar x y ch s).cfg, ← Nat.add_assoc, memRead_drawChar hclip hc]

/-- A loop of steps that commute with each other and each repeat without effect repeats without effect. -/
theorem foldl_foldl_same {σ α : Type} (f : σ → α → σ) (hcomm : ∀ s a b, f (f s a) b = f (f s b) a)
    (hself : ∀ s a, f (f s a) a = f s a) (l : List α) (s : σ) : l.foldl f (l.foldl f s) = l.foldl f s := by
  have : RightCommutative f := ⟨hcomm⟩
  induction l generalizing s with
  | nil => rfl
  | cons a l ih =>
    have hlast : f (l.foldl f (f s a)) a = l.foldl f (f s a) := by
      calc f (l.foldl f (f s a)) a = (l ++ [a]).foldl f (f s a) := by rw [List.foldl_concat]
        _ = (a :: l).foldl f (f s a) := (List.perm_append_singleton a l).foldl_eq _
        _ = l.foldl f (f s a) := by rw [List.foldl_cons, hself]
    rw [List.foldl_cons, List.foldl_cons, hlast, ih]

theorem drawChar_of_not_clip {x y : Nat} {ch : Byte} {s : State} (h : clip8 s.cfg x y = false) :
    drawChar x y ch s = (List.range 8).foldl
      (fun t c => memWrite t (page y * t.cfg.W + x + c) (glyphByte t.cfg (glyphIndex ch) c)) s :=
  if_neg (Bool.eq_false_iff.mp h)

/-- The eight writes of a glyph go to eight different bytes, so writing them again changes nothing. -/
theorem drawChar_drawChar_same (x y : Nat) (ch : Byte) (s : State) :
    drawChar x y ch (drawChar x y ch s) = drawChar x y ch s := by
  cases hc : clip8 s.cfg x y with
  | true => rw [drawChar_of_clip hc, drawChar_of_clip hc]
  | false =>
    have hc' : clip8 (drawChar x y ch s).cfg x y = false := (drawsAt_drawChar x y ch s).cfg ▸ hc
    rw [drawChar_of_not_clip hc', drawChar_of_not_clip hc]
    refine foldl_foldl_same _ (fun t c d => ?_) (fun t c => memWrite_memWrite_same t _ _ _) _ s
    by_cases hcd : c = d
    · rw [hcd]
    · have hne : page y * t.cfg.W + x + c ≠ page y * t.cfg.W + x + d := by omega
      exact memWrite_comm t hne _ _

/-- A character counts by its glyph only. -/
theorem drawChar_congr {ch ch' : Byte} (h : glyphIndex ch = glyphIndex ch') (x y : Nat) (s : State) :
    drawChar x y ch s = drawChar x y ch' s := by
  unfold drawChar
  rw [h]

/-- Settles O43: what `drawChar` leaves, from any state, twice, and for the other case of a letter. -/
theorem writeCharLaws : Obligations.WriteCharLaws := by
  intro x y ch s h
  have hc : clip8 s.cfg x.toNat y.toNat = false := (clip8_eq_false_iff _ _ _).mpr h
  refine ⟨_, exec_writeChar x y ch s, fun _ _ hc8 hk => pixel_drawChar hc hc8 hk, fun s' hs' => ?_, ?_,
    fun hlower => ?_⟩
  · refine ⟨_, exec_writeChar x y ch s', fun c hc8 => ?_⟩
    have hc' : clip8 s'.cfg x.toNat y.toNat = false := hs' ▸ hc
    have hbyte := memRead_drawChar (ch := ch) hc' hc8
    rw [hs'] at hbyte
    exact hbyte.trans (memRead_drawChar hc hc8).symm
  · rw [exec_writeChar, drawChar_advance, drawChar_drawChar_same]
    rfl
  · rw [exec_writeChar, drawChar_congr (glyphIndex_sub_of_lower hlower)]

/-! ### The double-size glyph -/

theorem exec_writeBigChar (x y ch : Byte) (s : State) :
    exec (.writeBigChar x y ch) s = .next (advance 1 (drawBigChar x.toNat y.toNat ch s)) := rfl

theorem exec_writeBigChar_of_clip {x y : Byte} (ch : Byte) {s : State}
    (h : x.toNat > s.cfg.W - 16 ∨ y.toNat > 48) : exec (.writeBigChar x y ch) s = .next (advance 1 s) := by
  rw [exec_writeBigChar, drawBigChar_of_clip ((clip16_iff _ _ _).mpr h)]

/-- Settles O44: the bytes are those `memRead_drawBigChar` reads, and `drawsAt_drawBigChar` is the frame. -/
theorem writeBigCharDrawsOneGlyph : Obligations.WriteBigCharDrawsOneGlyph := by
  refine fun x y ch s => ⟨exec_writeBigChar_of_clip ch, fun h => ?_⟩
  have hc : clip16 s.cfg x.toNat y.toNat = false := (clip16_eq_false_iff _ _ _).mpr h
  have hdraws := drawsAt_drawBigChar x.toNat y.toNat ch s
  refine ⟨_, congrArg _ (hdraws.advance_eq 1), fun c k hc8 hk => ?_, fun j hj => ?_⟩
  · rw [hdraws.memRead_fb, hdraws.memRead_fb, ← lowByte_eq_setWidth, ← highByte_eq_setWidth]
    exact memRead_drawBigChar hc hc8 hk
  · rw [hdraws.memRead_fb]
    exact hdraws.elsewhere j fun ⟨_, q, hq, hjq⟩ => not_or.mpr (hj q hq) hjq

/-- Row `r` of a double-size glyph shows bit `r` of the doubled glyph column: the low byte's in the glyph's first page,
the high byte's in its second. -/
theorem pixel_drawBigChar {x y : Nat} {ch : Byte} {s : State} (hclip : clip16 s.cfg x y = false) {c a r : Nat}
    (hc : c < 8) (ha : a < 2) (hr : r < 16) :
    pixel (drawBigChar x y ch s) (x + 2 * c + a) (8 * page y + r) =
      (double16 (glyphByte s.cfg (glyphIndex ch) c)).getLsbD r := by
  obtain ⟨hlow, hhigh⟩ := memRead_drawBigChar (ch := ch) hclip hc ha
  have hcfg := (drawsAt_drawBigChar x y ch s).cfg
  by_cases hr8 : r < 8
  · rw [pixel_row _ _ _ hr8, hcfg, ← Nat.add_assoc, ← Nat.add_assoc, hlow, lowByte_bit _ hr8]
  · obtain ⟨k, rfl⟩ := Nat.exists_eq_add_of_le (Nat.le_of_not_lt hr8)
    have hk : k < 8 := by omega
    rw [show 8 * page y + (8 + k) = 8 * (page y + 1) + k by omega, pixel_row _ _ _ hk, hcfg, ← Nat.add_assoc,
      ← Nat.add_assoc, hhigh, highByte_bit _ hk]

/-- Settles O45: rows `2k` and `2k + 1` of the doubled column are bit `k` of the glyph column (`double16_bit`). -/
theorem bigGlyphDownSamplesToTheGlyph : Obligations.BigGlyphDownSamplesToTheGlyph := by
  intro x y x' y' ch s s' hcfg hbig hnormal
  have hc : clip16 s.cfg x.toNat y.toNat = false := (clip16_eq_false_iff _ _ _).mpr hbig
  have hc' : clip8 s'.cfg x'.toNat y'.toNat = false := (clip8_eq_false_iff _ _ _).mpr (hcfg ▸ hnormal)
  refine ⟨_, _, exec_writeBigChar x y ch s, exec_writeChar x' y' ch s', fun c k a b hc8 hk ha hb => ⟨?_, ?_⟩⟩
  · have hr : 2 * k + b < 16 := by omega
    rw [pixel_advance, Nat.add_assoc (8 * _)]
    refine (pixel_drawBigChar hc hc8 ha hr).trans ?_
    rw [double16_bit _ _ hr, show (2 * k + b) / 2 = k by omega]
  · exact hcfg ▸ pixel_drawChar hc' hc8 hk

end Sys2Proof.Machine

/-! ## Strings (42_glyph.md R170, R171, R175, R176) -/

namespace Sys2Proof.Machine

/-- The check of the origin is redundant: where it fails, every character's own check fails (R171). -/
theorem drawString_eq_foldl (x y : Nat) (chars : List Byte) (s : State) :
    drawString x y chars s = chars.zipIdx.foldl (fun t cj => drawChar (x + 8 * cj.2) y cj.1 t) s := by
  unfold drawString
  split
  · next hc =>
    have hskip : ∀ cj : Byte × Nat, drawChar (x + 8 * cj.2) y cj.1 s = s := fun _ =>
      drawChar_of_clip (clip8_mono (Nat.le_add_right _ _) hc)
    rw [List.foldl_fixed' hskip]
  · rfl

theorem drawBigString_eq_foldl (x y : Nat) (chars : List Byte) (s : State) :
    drawBigString x y chars s = chars.zipIdx.foldl (fun t cj => drawBigChar (x + 16 * cj.2) y cj.1 t) s := by
  unfold drawBigString
  split
  · next hc =>
    have hskip : ∀ cj : Byte × Nat, drawBigChar (x + 16 * cj.2) y cj.1 s = s := fun _ =>
      drawBigChar_of_clip (clip16_mono (Nat.le_add_right _ _) hc)
    rw [List.foldl_fixed' hskip]
  · rfl

theorem exec_writeString (x y : Byte) (chars : List Byte) (s : State) :
    exec (.writeString x y chars) s =
      .next (advance (1 + ceil8 chars.length) (drawString x.toNat y.toNat chars s)) := rfl

theorem exec_writeBigString (x y : Byte) (chars : List Byte) (s : State) :
    exec (.writeBigString x y chars) s =
      .next (advance (1 + ceil8 chars.length) (drawBigString x.toNat y.toNat chars s)) := rfl

/-- Settles O49: a glyph and a string check their origin before they draw. -/
theorem failedOriginChangesNothing : Obligations.FailedOriginChangesNothing := by
  refine fun x y ch chars s =>
    ⟨fun h => ⟨exec_writeChar_of_clip ch h, ?_⟩, fun h => ⟨exec_writeBigChar_of_clip ch h, ?_⟩⟩
  · rw [exec_writeString, drawString, if_pos ((clip8_iff _ _ _).mpr h)]
    rfl
  · rw [exec_writeBigString, drawBigString, if_pos ((clip16_iff _ _ _).mpr h)]
    rfl

/-! ### Byte by byte -/

/-- A list with its positions, cut at position `j`. -/
theorem zipIdx_split {α : Type} {l : List α} {j : Nat} {a : α} (h : l[j]? = some a) :
    l.zipIdx = (l.take j).zipIdx ++ (a, j) :: (l.drop (j + 1)).zipIdx (j + 1) := by
  obtain ⟨hj, rfl⟩ := List.getElem?_eq_some_iff.mp h
  conv_lhs => rw [← List.take_append_drop j l, List.drop_eq_getElem_cons hj, List.zipIdx_append]
  rw [List.length_take_of_le (Nat.le_of_lt hj), Nat.zero_add, List.zipIdx_cons]

/-- After the characters of a string are drawn, each in its area, a byte no later character draws at is what
character `j` left there. -/
theorem memRead_foldl_zipIdx {A : Nat → Nat → Prop} {f : State → Byte × Nat → State} {chars : List Byte} {j : Nat}
    {ch : Byte} (hj : chars[j]? = some ch) {s : State} {i : Nat} {v : Byte}
    (hf : ∀ t cj, t.cfg = s.cfg → DrawsAt (A cj.2) t (f t cj))
    (hv : ∀ t, t.cfg = s.cfg → memRead (f t (ch, j)) i = v) (hlater : ∀ j', j < j' → ¬A j' i) :
    memRead (chars.zipIdx.foldl f s) i = v := by
  rw [zipIdx_split hj]
  exact memRead_foldl_last (fun cj => A cj.2) f _ _ _ s i v (fun t cj _ => hf t cj) hv
    fun cj hcj => hlater cj.2 (List.le_snd_of_mem_zipIdx hcj)

/-- Later characters of a string stand to the right of this one. -/
theorem memRead_drawString {x y : Nat} {chars : List Byte} {s : State} {j c : Nat} {ch : Byte}
    (hj : chars[j]? = some ch) (hclip : clip8 s.cfg (x + 8 * j) y = false) (hc : c < 8) :
    memRead (drawString x y chars s) (page y * s.cfg.W + (x + 8 * j) + c) = glyphByte s.cfg (glyphIndex ch) c := by
  rw [drawString_eq_foldl]
  refine memRead_foldl_zipIdx (A := fun j => charArea s.cfg (x + 8 * j) y) hj (fun t cj ht => ?_) (fun t ht => ?_) ?_
  · exact ht ▸ drawsAt_drawChar (x + 8 * cj.2) y cj.1 t
  · rw [← ht] at hclip ⊢
    exact memRead_drawChar hclip hc
  · rintro j' hj' ⟨-, k, -, hk⟩
    omega

theorem memRead_drawBigString {x y : Nat} {chars : List Byte} {s : State} {j c e : Nat} {ch : Byte}
    (hj : chars[j]? = some ch) (hclip : clip16 s.cfg (x + 16 * j) y = false) (hc : c < 8) (he : e < 2) :
    memRead (drawBigString x y chars s) (page y * s.cfg.W + (x + 16 * j) + 2 * c + e) =
        lowByte (double16 (glyphByte s.cfg (glyphIndex ch) c)) ∧
      memRead (drawBigString x y chars s) ((page y + 1) * s.cfg.W + (x + 16 * j) + 2 * c + e) =
        highByte (double16 (glyphByte s.cfg (glyphIndex ch) c)) := by
  have hW := s.cfg.W_ge
  have hmul : (page y + 1) * s.cfg.W = page y * s.cfg.W + s.cfg.W := Nat.succ_mul _ _
  have hdraws : ∀ (t : State) (cj : Byte × Nat), t.cfg = s.cfg →
      DrawsAt (bigCharArea s.cfg (x + 16 * cj.2) y) t (drawBigChar (x + 16 * cj.2) y cj.1 t) :=
    fun t cj ht => ht ▸ drawsAt_drawBigChar (x + 16 * cj.2) y cj.1 t
  have hfits := (clip16_eq_false_iff _ _ _).mp hclip
  rw [drawBigString_eq_foldl]
  constructor
  · refine memRead_foldl_zipIdx (A := fun j => bigCharArea s.cfg (x + 16 * j) y) hj hdraws (fun t ht => ?_) ?_
    · rw [← ht] at hclip ⊢
      exact (memRead_drawBigChar hclip hc he).1
    · rintro j' hj' ⟨-, k, hk, hi⟩
      omega
  · refine memRead_foldl_zipIdx (A := fun j => bigCharArea s.cfg (x + 16 * j) y) hj hdraws (fun t ht => ?_) ?_
    · rw [← ht] at hclip ⊢
      exact (memRead_drawBigChar hclip hc he).2
    · rintro j' hj' ⟨hclip', k, hk, hi⟩
      have hfits' := (clip16_eq_false_iff _ _ _).mp hclip'
      omega

/-- Settles O46: each character's bytes outlast the characters after it, and `drawsAt_drawString` is the frame. -/
theorem writeStringDrawsEachCharacter : Obligations.WriteStringDrawsEachCharacter := by
  intro x y chars s
  have hdraws := drawsAt_drawString x.toNat y.toNat chars s
  refine ⟨_, congrArg _ (hdraws.advance_eq _), fun j c ch hj hc8 h => ?_, fun i hi => ?_⟩
  · rw [hdraws.memRead_fb]
    exact memRead_drawString hj ((clip8_eq_false_iff _ _ _).mpr h) hc8
  · rw [hdraws.memRead_fb]
    refine hdraws.elsewhere i ?_
    rintro ⟨cj, hcj, hclip, k, hk, hik⟩
    exact hi cj.2 k (List.snd_lt_of_mem_zipIdx hcj) hk ((clip8_eq_false_iff _ _ _).mp hclip) hik

/-- Settles O47: as for the normal size, with the low bytes in one page and the high bytes in the page below. -/
theorem writeBigStringDrawsEachCharacter : Obligations.WriteBigStringDrawsEachCharacter := by
  intro x y chars s
  have hdraws := drawsAt_drawBigString x.toNat y.toNat chars s
  refine ⟨_, congrArg _ (hdraws.advance_eq _), fun j c k ch hj hc8 hk h => ?_, fun i hi => ?_⟩
  · rw [hdraws.memRead_fb, hdraws.memRead_fb, ← lowByte_eq_setWidth, ← highByte_eq_setWidth]
    exact memRead_drawBigString hj ((clip16_eq_false_iff _ _ _).mpr h) hc8 hk
  · rw [hdraws.memRead_fb]
    refine hdraws.elsewhere i ?_
    rintro ⟨cj, hcj, hclip, q, hq, hiq⟩
    exact not_or.mpr (hi cj.2 q (List.snd_lt_of_mem_zipIdx hcj) hq ((clip16_eq_false_iff _ _ _).mp hclip)) hiq

/-! ### A string and its characters' commands -/

theorem advance_advance (m n : Nat) (s : State) : advance n (advance m s) = advance (m + n) s :=
  congrArg (fun k => { s with csp := k }) (Nat.add_assoc s.csp m n)

/-- One character's command in a run of commands, at its own 8-bit column. -/
def runCharacter (width : Nat) (command : Byte → Byte → Instr) (x : Byte) (o : Host.Outcome State Fault Refusal)
    (cj : Byte × Nat) : Host.Outcome State Fault Refusal :=
  match o with
  | .next u => exec (command (x + BitVec.ofNat 8 (width * cj.2)) cj.1) u
  | _ => o

/-- The characters' commands leave what drawing the characters leaves, but for `csp`: the commands left out draw
nothing. -/
theorem foldl_runCharacter {width : Nat} {command : Byte → Byte → Instr} {draw : Nat → Byte → State → State}
    (hexec : ∀ px ch u, exec (command px ch) u = .next (advance 1 (draw px.toNat ch u)))
    (hadvance : ∀ px ch n u, draw px ch (advance n u) = advance n (draw px ch u))
    (hpast : ∀ px ch u, 256 ≤ px → draw px ch u = u) (x : Byte) (l : List (Byte × Nat)) (s : State) :
    ∃ n, (l.filter fun cj => decide (x.toNat + width * cj.2 < 256)).foldl (runCharacter width command x) (.next s) =
      .next (advance n (l.foldl (fun t cj => draw (x.toNat + width * cj.2) cj.1 t) s)) := by
  induction l generalizing s with
  | nil => exact ⟨0, rfl⟩
  | cons cj l ih =>
    by_cases hfits : x.toNat + width * cj.2 < 256
    · have hpx : (x + BitVec.ofNat 8 (width * cj.2)).toNat = x.toNat + width * cj.2 := by
        rw [BitVec.toNat_add, BitVec.toNat_ofNat]
        omega
      obtain ⟨n, hn⟩ := ih (advance 1 (draw (x.toNat + width * cj.2) cj.1 s))
      refine ⟨1 + n, ?_⟩
      rw [List.filter_cons_of_pos (by simpa using hfits), List.foldl_cons, runCharacter, hexec, hpx, hn,
        foldl_advance 1 _ (fun t _ => hadvance _ _ 1 t), List.foldl_cons, advance_advance]
    · rw [List.filter_cons_of_neg (by simpa using hfits), List.foldl_cons, hpast _ _ _ (Nat.le_of_not_lt hfits)]
      exact ih s

/-- Settles O48: both a string and the run of commands are the loop over the characters, and `csp` alone differs. -/
theorem stringIsItsCharacterCommands : Obligations.StringIsItsCharacterCommands := by
  refine fun x y chars s => ⟨?_, ?_⟩
  · obtain ⟨n, hn⟩ := foldl_runCharacter (width := 8) (command := fun px ch => .writeChar px y ch)
      (draw := fun px ch => drawChar px y.toNat ch)
      (fun px => exec_writeChar px y) (fun px => drawChar_advance px y.toNat)
      (fun _ _ _ hpx => drawChar_of_clip (clip8_of_ge hpx y.toNat)) x chars.zipIdx s
    refine ⟨_, hn, ?_⟩
    rw [exec_writeString, ← drawString_eq_foldl, (drawsAt_drawString _ _ _ s).onlyFb]
    rfl
  · obtain ⟨n, hn⟩ := foldl_runCharacter (width := 16) (command := fun px ch => .writeBigChar px y ch)
      (draw := fun px ch => drawBigChar px y.toNat ch)
      (fun px => exec_writeBigChar px y) (fun px => drawBigChar_advance px y.toNat)
      (fun _ _ _ hpx => drawBigChar_of_clip (clip16_of_ge hpx y.toNat)) x chars.zipIdx s
    refine ⟨_, hn, ?_⟩
    rw [exec_writeBigString, ← drawBigString_eq_foldl, (drawsAt_drawBigString _ _ _ s).onlyFb]
    rfl

end Sys2Proof.Machine

/-! ## Device commands (43_device.md) -/

namespace Sys2Proof.Machine

/-! ### INIT (R195, R196) -/

/-- The event of `BusSetup()` (R192). -/
def setupEvent (s : State) : BusEvent := .setup s.cfg.busId s.cfg.busClkHz s.cfg.sdaPin s.cfg.sclPin

/-- The events of an INIT that is answered `ok` throughout. -/
def initEvents (s : State) : List BusEvent :=
  setupEvent s :: s.cfg.initBytes.toList.map (commandEvent s .ok)

/-- The events of an INIT whose first `error` answers write `n`. -/
def initEventsUntil (n : Nat) (hn : n < 27) (s : State) : List BusEvent :=
  setupEvent s :: (s.cfg.initBytes.toList.take n).map (commandEvent s .ok) ++
    [commandEvent s .error s.cfg.initBytes[n]]

theorem afterWrites_busSetup (n : Nat) (events : List BusEvent) (s : State) :
    afterWrites n events (busSetup s) = afterWrites n (setupEvent s :: events) s := by
  rw [busSetup_eq_afterWrites, afterWrites_afterWrites, Nat.zero_add]
  rfl

theorem initEffect_of_ok {s : State} (h : ∀ n < 27, answerAt s n = .ok) :
    initEffect s =
      { afterWrites 27 (initEvents s) s with
        initDone := true, powered := true, inverted := false, busStatus := 1 } := by
  have hsend := sendCommands_all_ok s.cfg.initBytes.toList (busSetup s) (by simpa using h)
  rw [afterWrites_busSetup, Vector.length_toList] at hsend
  rw [initEffect, hsend]
  rfl

theorem initEffect_of_error {s : State} {n : Nat} (hn : n < 27) (h : ∀ k < n, answerAt s k = .ok)
    (he : answerAt s n = .error) :
    initEffect s =
      { afterWrites (n + 1) (initEventsUntil n hn s) s with initDone := false, busStatus := 2 } := by
  have hsend := sendCommands_error s.cfg.initBytes.toList (busSetup s) n (by simpa using hn) h he
  rw [afterWrites_busSetup, Vector.getElem_toList] at hsend
  rw [initEffect, hsend]
  rfl

theorem exec_init (s : State) : exec .init s = .next (advance 1 (initEffect s)) := rfl

/-- Settles O50: INIT is its effect and the move of `csp`, and its effect is fixed by the first error. -/
theorem initSendsTheSequence : Obligations.InitSendsTheSequence := by
  refine fun s => ⟨fun h => ?_, fun n hn h he => ?_⟩
  · rw [exec_init, initEffect_of_ok h]
    rfl
  · rw [exec_init, initEffect_of_error hn h he]
    rfl

/-- The state an INIT leaves that is answered `ok` throughout. -/
def initCompleted (s : State) : State :=
  { afterWrites 27 (initEvents s) s with
    initDone := true, powered := true, inverted := false, busStatus := 1, csp := s.csp + 1 }

theorem exec_init_of_ok {s : State} (h : ∀ n < 27, answerAt s n = .ok) : exec .init s = .next (initCompleted s) :=
  (initSendsTheSequence s).1 h

theorem answerAt_initCompleted (s : State) (n : Nat) : answerAt (initCompleted s) n = answerAt s (27 + n) :=
  answerAt_afterWrites 27 (initEvents s) s n

theorem length_initEvents (s : State) : (initEvents s).length = 28 := by simp [initEvents]

/-- Settles O51: an INIT answered `ok` leaves `initCompleted s`, whose configuration is that of `s`, so that a second
INIT has the same events; and `initCompleted s` does not read the mirror flags. -/
theorem initLaws : Obligations.InitLaws := by
  refine ⟨fun s h => ?_, fun s => ?_, fun s a b c h => ?_⟩
  · have hfirst : ∀ n < 27, answerAt s n = .ok := fun n hn => h n (by omega)
    have hsecond : ∀ n < 27, answerAt (initCompleted s) n = .ok := fun n hn => by
      rw [answerAt_initCompleted]
      exact h _ (by omega)
    exact ⟨_, _, initEvents s, exec_init_of_ok hfirst, exec_init_of_ok hsecond, length_initEvents s, rfl, rfl⟩
  · obtain ⟨hfb, hepoch, -⟩ := nextState_of_device (i := .init) rfl s
    exact ⟨_, exec_eq .init s, hfb, hepoch⟩
  · exact ⟨_, exec_init_of_ok h, exec_init_of_ok h⟩

/-! ### The commands of one transfer (R198, R200 to R202) -/

theorem oneTransfer_of_ok {bytes : List Byte} {f : State → State} {s : State} (h : answerAt s 0 = .ok) :
    oneTransfer bytes f s =
      { f (afterWrites 1 [.write s.cfg.devAddr bytes .ok] s) with busStatus := 1 } := by
  rw [← nextAnswer_eq] at h
  rw [oneTransfer_ok h, busWrite_eq_afterWrites, h]

theorem oneTransfer_of_error {bytes : List Byte} {f : State → State} {s : State} (h : answerAt s 0 = .error) :
    oneTransfer bytes f s = { afterWrites 1 [.write s.cfg.devAddr bytes .error] s with busStatus := 2 } := by
  rw [← nextAnswer_eq] at h
  rw [oneTransfer_error h, busWrite_eq_afterWrites, h]

/-- In state `s` command `i` needs `INIT_DONE`, and then makes one transfer of `bytes` and, if that is answered `ok`,
the update `f`, which leaves `BUSLOG`. -/
structure IsOneTransfer (i : Instr) (s : State) (bytes : List Byte) (f : State → State) : Prop where
  fault : faultOf i s = if s.initDone then none else some .notInitialized
  effect : effect i s = oneTransfer bytes f s
  oneWord : i.chars = []
  keepsLog : ∀ t, (f t).busLog = t.busLog

theorem isOneTransfer_invert (v : Bool) (s : State) :
    IsOneTransfer (.invert v) s [0x00, if v then 0xA7 else 0xA6] fun t => { t with inverted := v } :=
  ⟨rfl, by cases v <;> rfl, rfl, fun _ => rfl⟩

theorem isOneTransfer_powerOff (s : State) :
    IsOneTransfer .powerOff s [0x00, 0xAE] fun t => { t with powered := false } := ⟨rfl, rfl, rfl, fun _ => rfl⟩

theorem isOneTransfer_powerOn (s : State) :
    IsOneTransfer .powerOn s [0x00, 0xAF] fun t => { t with powered := true } := ⟨rfl, rfl, rfl, fun _ => rfl⟩

theorem fbBytes_eq (s : State) : fbBytes s = (List.range (8 * s.cfg.W)).map (memRead s) := by
  rw [fbBytes, Config.fbLen_eq]

theorem isOneTransfer_flush (s : State) :
    IsOneTransfer .flush s (0x40 :: (List.range (8 * s.cfg.W)).map (memRead s)) fun t => t :=
  ⟨rfl, by rw [← fbBytes_eq]; rfl, rfl, fun _ => rfl⟩

section

variable {i : Instr} {s : State} {bytes : List Byte} {f : State → State} (h : IsOneTransfer i s bytes f)
include h

theorem IsOneTransfer.nextState_eq (hi : s.initDone = true) : nextState i s = advance 1 (oneTransfer bytes f s) := by
  have hf : faultOf i s = none := by rw [h.fault, if_pos hi]
  rw [nextState_of_noFault hf, length_encode_of_chars_nil h.oneWord, h.effect]

theorem IsOneTransfer.exec_before_init (hi : s.initDone = false) :
    exec i s = .next (raiseFault .notInitialized i.firstWord s) := by
  have hf : faultOf i s = some .notInitialized := by rw [h.fault, hi]; rfl
  rw [exec_eq, nextState_of_fault hf]

theorem IsOneTransfer.exec_of_ok (hi : s.initDone = true) (ha : answerAt s 0 = .ok) :
    exec i s = .next (advance 1
      { f (afterWrites 1 [.write s.cfg.devAddr bytes .ok] s) with busStatus := 1 }) := by
  rw [exec_eq, h.nextState_eq hi, oneTransfer_of_ok ha]

theorem IsOneTransfer.exec_of_error (hi : s.initDone = true) (ha : answerAt s 0 = .error) :
    exec i s = .next (advance 1
      { afterWrites 1 [.write s.cfg.devAddr bytes .error] s with busStatus := 2 }) := by
  rw [exec_eq, h.nextState_eq hi, oneTransfer_of_error ha]

end

/-- Settles O52: INVERT is a command of one transfer. -/
theorem invertSetsThePolarity : Obligations.InvertSetsThePolarity := fun v s =>
  have h := isOneTransfer_invert v s
  ⟨h.exec_before_init, h.exec_of_ok, h.exec_of_error⟩

/-- Settles O53: POWER_OFF is a command of one transfer. -/
theorem powerOffClearsPowered : Obligations.PowerOffClearsPowered := fun s =>
  have h := isOneTransfer_powerOff s
  ⟨h.exec_before_init, h.exec_of_ok, h.exec_of_error⟩

/-- Settles O54: POWER_ON is a command of one transfer. -/
theorem powerOnSetsPowered : Obligations.PowerOnSetsPowered := fun s =>
  have h := isOneTransfer_powerOn s
  ⟨h.exec_before_init, h.exec_of_ok, h.exec_of_error⟩

/-- Settles O55: FLUSH is a command of one transfer. -/
theorem flushSendsTheFramebuffer : Obligations.FlushSendsTheFramebuffer := fun s =>
  have h := isOneTransfer_flush s
  ⟨h.exec_before_init, h.exec_of_ok, h.exec_of_error⟩

/-! ### What every command does on the bus (R197) -/

/-- No write among the events is answered `error`. -/
def NoError (events : List BusEvent) : Prop := ∀ addr bytes, BusEvent.write addr bytes .error ∉ events

/-- The bytes command `i` may send from state `s` (R193, R194; the last four values are PRESUMED, assumption log 17). -/
def MaySend (i : Instr) (s : State) (bytes : List Byte) : Prop :=
  (i = .flush ∧ bytes = 0x40 :: (List.range (8 * s.cfg.W)).map (memRead s)) ∨
    (i ≠ .flush ∧ ∃ b : Byte, bytes = [0x00, b] ∧
      (b ∈ s.cfg.initBytes.toList ∨ b = 0xA6 ∨ b = 0xA7 ∨ b = 0xAE ∨ b = 0xAF))

/-- The event, if it is a write, is of bytes command `i` may send from state `s`. -/
def OwnEvent (i : Instr) (s : State) : BusEvent → Prop
  | .setup _ _ _ _ => True
  | .write _ bytes _ => MaySend i s bytes

/-- What command `i` did on the bus between `s` and `t`: it appended `events`, and either none was answered `error`,
or the last one alone was and R197 says the rest of `t`. -/
inductive BusRun (i : Instr) (s : State) : List BusEvent → State → Prop
  | answered {events : List BusEvent} {t : State} (hlog : t.busLog = s.busLog ++ events) (hok : NoError events) :
      BusRun i s events t
  | failed (n : Nat) {before : List BusEvent} {bytes : List Byte} {t : State} (hok : NoError before)
      (ht : t =
        { afterWrites n (before ++ [.write s.cfg.devAddr bytes .error]) s with
          initDone := if i = .init then false else s.initDone, busStatus := 2, csp := s.csp + 1 }) :
      BusRun i s (before ++ [.write s.cfg.devAddr bytes .error]) t

theorem BusRun.busLog {i : Instr} {s t : State} {events : List BusEvent} (h : BusRun i s events t) :
    t.busLog = s.busLog ++ events := by
  cases h with
  | answered hlog => exact hlog
  | failed n hok ht => rw [ht]; rfl

theorem busRun_of_sameLog {i : Instr} {s t : State} (h : t.busLog = s.busLog) : BusRun i s [] t :=
  .answered (by rw [h, List.append_nil]) nofun

/-- The replies of `m` writes: all `ok`, or a first `error`. -/
theorem replies_cases (s : State) (m : Nat) :
    (∀ n < m, answerAt s n = .ok) ∨
      ∃ n < m, (∀ k < n, answerAt s k = .ok) ∧ answerAt s n = .error := by
  induction m with
  | zero => exact .inl fun _ hn => absurd hn (Nat.not_lt_zero _)
  | succ m ih =>
    rcases ih with hall | ⟨n, hn, hfirst⟩
    · cases ha : answerAt s m with
      | ok => exact .inl (Nat.forall_lt_succ_right.mpr ⟨hall, ha⟩)
      | error => exact .inr ⟨m, Nat.lt_succ_self m, hall, ha⟩
    · exact .inr ⟨n, Nat.lt_succ_of_lt hn, hfirst⟩

theorem noError_setup_commands (s : State) (bs : List Byte) :
    NoError (setupEvent s :: bs.map (commandEvent s .ok)) := fun addr bytes h => by
  simp [setupEvent, commandEvent] at h

theorem maySend_init {s : State} {b : Byte} (hb : b ∈ s.cfg.initBytes.toList) : MaySend .init s [0x00, b] :=
  .inr ⟨nofun, b, rfl, .inl hb⟩

theorem ownEvent_setup_commands {s : State} {bs : List Byte} (hbs : ∀ b ∈ bs, b ∈ s.cfg.initBytes.toList) :
    ∀ e ∈ setupEvent s :: bs.map (commandEvent s .ok), OwnEvent .init s e :=
  List.forall_mem_cons.mpr ⟨trivial, List.forall_mem_map.mpr fun b hb => maySend_init (hbs b hb)⟩

theorem busRun_init (s : State) :
    ∃ events, BusRun .init s events (nextState .init s) ∧ ∀ e ∈ events, OwnEvent .init s e := by
  have hnext : nextState .init s = advance 1 (initEffect s) := (exec_next_iff.mp (exec_init s)).symm
  rcases replies_cases s 27 with hok | ⟨n, hn, hok, herr⟩
  · rw [hnext, initEffect_of_ok hok]
    exact ⟨initEvents s, .answered rfl (noError_setup_commands s _), ownEvent_setup_commands fun _ => id⟩
  · rw [hnext, initEffect_of_error hn hok herr]
    refine ⟨initEventsUntil n hn s, .failed (n + 1) (noError_setup_commands s _) rfl, ?_⟩
    exact List.forall_mem_append.mpr ⟨ownEvent_setup_commands fun _ => List.mem_of_mem_take,
      List.forall_mem_singleton.mpr (maySend_init (by simp))⟩

theorem IsOneTransfer.busRun {i : Instr} {s : State} {bytes : List Byte} {f : State → State}
    (h : IsOneTransfer i s bytes f) (hinit : i ≠ .init) (hi : s.initDone = true) :
    BusRun i s [.write s.cfg.devAddr bytes (answerAt s 0)] (nextState i s) := by
  rw [h.nextState_eq hi]
  cases ha : answerAt s 0 with
  | ok =>
    rw [oneTransfer_of_ok ha]
    exact .answered (h.keepsLog _) fun addr bytes hmem => by simp at hmem
  | error =>
    rw [oneTransfer_of_error ha]
    exact .failed 1 (before := []) nofun (by rw [if_neg hinit]; rfl)

/-- A command of one transfer that takes no fault makes it. -/
theorem IsOneTransfer.exists_busRun {i : Instr} {s : State} {bytes : List Byte} {f : State → State}
    (h : IsOneTransfer i s bytes f) (hinit : i ≠ .init) (hf : faultOf i s = none) (hown : MaySend i s bytes) :
    ∃ events, BusRun i s events (nextState i s) ∧ ∀ e ∈ events, OwnEvent i s e := by
  have hi : s.initDone = true := by simpa [hf] using h.fault
  exact ⟨_, h.busRun hinit hi, List.forall_mem_singleton.mpr hown⟩

/-- Only device commands reach the bus: INIT with its sequence, the others with one transfer. -/
theorem exists_busRun (i : Instr) (s : State) :
    ∃ events, BusRun i s events (nextState i s) ∧ ∀ e ∈ events, OwnEvent i s e := by
  cases hf : faultOf i s with
  | some cause =>
    rw [nextState_of_fault hf]
    exact ⟨[], busRun_of_sameLog rfl, nofun⟩
  | none =>
    cases i with
    | init => exact busRun_init s
    | invert v =>
      refine (isOneTransfer_invert v s).exists_busRun nofun hf (.inr ⟨nofun, _, rfl, ?_⟩)
      cases v <;> simp
    | powerOff => exact (isOneTransfer_powerOff s).exists_busRun nofun hf (.inr ⟨nofun, _, rfl, by simp⟩)
    | powerOn => exact (isOneTransfer_powerOn s).exists_busRun nofun hf (.inr ⟨nofun, _, rfl, by simp⟩)
    | flush => exact (isOneTransfer_flush s).exists_busRun nofun hf (.inl ⟨rfl, rfl⟩)
    | clear | setPixel | getPixel | drawLine | writeChar | writeBigChar | writeString | writeBigString =>
      rw [nextState_of_noFault hf, effect_of_drawing rfl hf]
      exact ⟨[], busRun_of_sameLog rfl, nofun⟩

/-- Settles O56: by what the command did on the bus. -/
theorem busErrorsCompleteTheCommand : Obligations.BusErrorsCompleteTheCommand := by
  intro i s
  obtain ⟨events, hrun, -⟩ := exists_busRun i s
  refine ⟨nextState i s, events, exec_eq i s, hrun.busLog, fun addr bytes hmem => ?_⟩
  cases hrun with
  | answered hlog hok => exact absurd hmem (hok addr bytes)
  | failed n hok ht =>
    obtain ⟨rfl, rfl, -⟩ :=
      BusEvent.write.inj (List.mem_singleton.mp ((List.mem_append.mp hmem).resolve_left (hok addr bytes)))
    rw [ht]
    exact ⟨⟨_, rfl, hok⟩, rfl, rfl, rfl, rfl, rfl, rfl⟩

/-! ### FLUSH and the commands between (R203) -/

/-- The framebuffer's bytes are a function of these three fields. -/
structure SameDisplay (s t : State) : Prop where
  cfg : t.cfg = s.cfg
  fb : t.fb = s.fb
  fbEpoch : t.fbEpoch = s.fbEpoch

theorem SameDisplay.trans {s t u : State} (h : SameDisplay s t) (h' : SameDisplay t u) : SameDisplay s u :=
  ⟨h'.cfg.trans h.cfg, h'.fb.trans h.fb, h'.fbEpoch.trans h.fbEpoch⟩

theorem SameDisplay.memRead {s t : State} (h : SameDisplay s t) : memRead t = memRead s := by
  funext i
  simp only [Machine.memRead, h.fb, h.fbEpoch]

theorem nextState_cfg (i : Instr) (s : State) : (nextState i s).cfg = s.cfg := by
  cases hf : faultOf i s with
  | some cause => rw [nextState_of_fault hf]; rfl
  | none => rw [nextState_of_noFault hf]; exact (effect_sameControl hf).cfg

theorem sameDisplay_of_device {i : Instr} (hd : isDrawing i = false) (s : State) : SameDisplay s (nextState i s) :=
  have ⟨hfb, hepoch, _⟩ := nextState_of_device hd s
  ⟨nextState_cfg i s, hfb, hepoch⟩

/-- One command of a run of commands. -/
def thenExec (o : Host.Outcome State Fault Refusal) (i : Instr) : Host.Outcome State Fault Refusal :=
  match o with
  | .next r => exec i r
  | _ => o

/-- A run of commands that do not draw leaves the display's bytes. -/
theorem sameDisplay_of_foldl {between : List Instr} (hd : ∀ i ∈ between, isDrawing i = false) {t u : State}
    (h : between.foldl thenExec (.next t) = .next u) : SameDisplay t u := by
  induction between generalizing t with
  | nil =>
    obtain rfl := Host.Outcome.next.inj h
    exact ⟨rfl, rfl, rfl⟩
  | cons i between ih =>
    obtain ⟨hi, hrest⟩ := List.forall_mem_cons.mp hd
    rw [List.foldl_cons, thenExec, exec_eq] at h
    exact (sameDisplay_of_device hi t).trans (ih hrest h)

/-- The event a FLUSH that completes appends. -/
theorem busLog_flush {s : State} (hi : s.initDone = true) :
    (nextState .flush s).busLog =
      s.busLog ++ [.write s.cfg.devAddr (0x40 :: (List.range (8 * s.cfg.W)).map (memRead s)) (answerAt s 0)] :=
  ((isOneTransfer_flush s).busRun nofun hi).busLog

/-- Settles O57: no device command writes the display's bytes, so two FLUSHes with only device commands between send
the same ones; the bytes of every write are those of `exists_busRun`. -/
theorem flushLaws : Obligations.FlushLaws := by
  refine ⟨fun s t h => ?_, fun between s t u hs hu hd h hrun => ?_, fun i s t addr bytes a events h hlog hmem => ?_⟩
  · obtain rfl := exec_next_iff.mp h
    have hsame := sameDisplay_of_device (i := .flush) rfl s
    exact ⟨hsame.fb, hsame.fbEpoch⟩
  · obtain rfl := exec_next_iff.mp h
    have hsame := (sameDisplay_of_device (i := .flush) rfl s).trans (sameDisplay_of_foldl hd hrun)
    refine ⟨_, answerAt u 0, _, _, exec_eq .flush u, busLog_flush hs, ?_⟩
    rw [busLog_flush hu, hsame.cfg, hsame.memRead]
  · obtain rfl := exec_next_iff.mp h
    obtain ⟨events', hrun, hown⟩ := exists_busRun i s
    obtain rfl : events = events' := List.append_cancel_left (hlog.symm.trans hrun.busLog)
    exact hown _ hmem

end Sys2Proof.Machine

/-! ## The outcomes of a step (60_exceptions.md R231, R248, R249) -/

namespace Sys2Proof.Machine

theorem step_of_faulted {s : State} (h : s.faulted = true) : step s = .fault .halted := by
  simp only [step, fetch, if_pos h]

/-- Settles O10: the prologue hands the decoded command to `exec` and adds nothing. -/
theorem stepRunsTheDecodedCommand : Obligations.StepRunsTheDecodedCommand := fun _ _ _ hf hd =>
  step_of_decode hf hd

/-- Settles O11: the words from `csp` on are the command's encoding and what follows, and they decode to it. -/
theorem encodedCommandRuns : Obligations.EncodedCommandRuns := by
  intro s before after i hf hi hport hcsp
  have hwords : wordsAtCsp s = encode i ++ after := by
    rw [wordsAtCsp, hport, hcsp, List.append_assoc, List.drop_left]
  exact step_of_decode hf (hwords ▸ decodeOfEncode i after hi)

/-! ### A step by the word at `csp` -/

theorem wordsAtCsp_of_getElem? {s : State} {w : Word} (h : s.port[s.csp]? = some w) :
    wordsAtCsp s = w :: s.port.drop (s.csp + 1) := by
  obtain ⟨hlt, rfl⟩ := List.getElem?_eq_some_iff.mp h
  exact List.drop_eq_getElem_cons hlt

/-- With no word at `csp` the machine waits for a command. -/
theorem step_of_noWord {s : State} (hf : s.faulted = false) (h : s.port[s.csp]? = none) :
    step s = .fault .awaitCommand := by
  have hwords : wordsAtCsp s = [] := List.drop_eq_nil_of_le (List.getElem?_eq_none_iff.mp h)
  simp only [step, fetch, hf, hwords, decode, Bool.false_eq_true, if_false]

section

variable {s : State} {w : Word} {o : Op} (hf : s.faulted = false) (hport : s.port[s.csp]? = some w)
  (hw : checkWord w = .ok o)

include hf hport hw

/-- A legal word whose command the stream does not hold to its end makes the machine wait for the payload. -/
theorem step_of_cutShort (h : s.port.length < s.csp + commandLength w) : step s = .fault .awaitPayload := by
  obtain ⟨hlt, -⟩ := List.getElem?_eq_some_iff.mp hport
  have hshort : (s.port.drop (s.csp + 1)).length < o.payloadWords w := by
    rw [payloadWords_commandLength hw] at h
    rw [List.length_drop]
    omega
  simp only [step, fetch, hf, wordsAtCsp_of_getElem? hport, decode, hw, if_pos hshort, Bool.false_eq_true, if_false]

/-- A legal word whose command the stream holds to its end runs that command. -/
theorem step_of_whole (h : s.csp + commandLength w ≤ s.port.length) :
    step s = .next (nextState (operandsOf o w (s.port.drop (s.csp + 1))) s) := by
  have hpayload : o.payloadWords w ≤ (s.port.drop (s.csp + 1)).length := by
    rw [payloadWords_commandLength hw] at h
    rw [List.length_drop]
    omega
  rw [step_of_decode hf (wordsAtCsp_of_getElem? hport ▸ decode_of_checkWord_ok hw hpayload), exec_eq]

end

/-- What a step from `s`, with no fault latched, can answer, and on which words. -/
inductive StepAnswer (s : State) : Host.Outcome State Fault Refusal → Prop
  | noWord (hport : s.port[s.csp]? = none) : StepAnswer s (.fault .awaitCommand)
  | illegal (w : Word) (why : Illegal) (hport : s.port[s.csp]? = some w) (hw : checkWord w = .error why) :
      StepAnswer s (.next (raiseFault (illegalCause why) w s))
  | cutShort (w : Word) (o : Op) (hport : s.port[s.csp]? = some w) (hw : checkWord w = .ok o)
      (h : s.port.length < s.csp + commandLength w) : StepAnswer s (.fault .awaitPayload)
  | whole (w : Word) (o : Op) (hport : s.port[s.csp]? = some w) (hw : checkWord w = .ok o)
      (h : s.csp + commandLength w ≤ s.port.length) :
      StepAnswer s (.next (nextState (operandsOf o w (s.port.drop (s.csp + 1))) s))

theorem stepAnswer {s : State} (hf : s.faulted = false) : StepAnswer s (step s) := by
  cases hport : s.port[s.csp]? with
  | none => exact step_of_noWord hf hport ▸ .noWord hport
  | some w =>
    cases hw : checkWord w with
    | error why => exact step_of_checkWord_error hf hport hw ▸ .illegal w why hport hw
    | ok o =>
      rcases Nat.lt_or_ge s.port.length (s.csp + commandLength w) with h | h
      · exact step_of_cutShort hf hport hw h ▸ .cutShort w o hport hw h
      · exact step_of_whole hf hport hw h ▸ .whole w o hport hw h

theorem step_eq_halted_iff (s : State) : step s = .fault .halted ↔ s.faulted = true := by
  refine ⟨fun h => ?_, step_of_faulted⟩
  by_contra hf
  have hanswer := stepAnswer (Bool.eq_false_iff.mpr hf)
  rw [h] at hanswer
  exact nomatch hanswer

/-- Only a string command's word tells a length past one word (30_encoding.md R88). -/
theorem string_of_one_lt_commandLength {w : Word} {o : Op} (hw : checkWord w = .ok o) (h : 1 < commandLength w) :
    o = .writeString ∨ o = .writeBigString := by
  rw [payloadWords_commandLength hw] at h
  cases o with
  | writeString => exact .inl rfl
  | writeBigString => exact .inr rfl
  | _ => exact absurd h (Nat.lt_irrefl 1)

/-- Settles O15: each of the four answers of an unfaulted step, and the halt, is given on its own words only. -/
theorem noStepExactlyWhenHaltedOrHeld : Obligations.NoStepExactlyWhenHaltedOrHeld := by
  refine fun s => ⟨step_eq_halted_iff s, fun hf => ?_⟩
  have hanswer := stepAnswer hf
  generalize step s = answer at hanswer
  rw [← List.getElem?_eq_none_iff]
  cases hanswer with
  | noWord hport => simp [hport]
  | illegal w why hport hw => simp [hport, hw]
  | cutShort w o hport hw h =>
    obtain ⟨hlt, -⟩ := List.getElem?_eq_some_iff.mp hport
    have hstring := string_of_one_lt_commandLength hw (by omega)
    simp [hport, hw, h, hstring]
  | whole w o hport hw h => simp [hport, h]

/-- Settles O23: the invariant keeps `csp` inside the stream, so no word stands at `csp` only at the stream's end. -/
theorem finalStatesAwaitACommand : Obligations.FinalStatesAwaitACommand := by
  intro s hinv
  cases hf : s.faulted with
  | true => simp [final, hf, step_of_faulted hf]
  | false =>
    obtain ⟨hawait, -⟩ := (noStepExactlyWhenHaltedOrHeld s).2 hf
    simp [final, hf, hawait, Nat.le_antisymm_iff, hinv.cspInside]

end Sys2Proof.Machine

/-! ## Faults (60_exceptions.md R232, R240, R242) -/

namespace Sys2Proof.Machine

/-- Settles O20: `inv_hostAct`, action by action. -/
theorem hostActionsKeepInvariant : Obligations.HostActionsKeepInvariant := fun a _ h => inv_hostAct h a

/-- Settles O16: no step is taken from a faulted state, and of the agents' actions only the reset reaches the latch. -/
theorem onlyResetLeavesTheFault : Obligations.OnlyResetLeavesTheFault := by
  intro s t hmove hf
  cases hmove with
  | mfr _ h => exact nomatch (step_of_faulted hf).symm.trans h
  | host a =>
    cases a with
    | supply ws => exact .inl ⟨hf, rfl, rfl, rfl⟩
    | answer replies => exact .inl ⟨hf, rfl, rfl, rfl⟩
    | assertReset => exact .inr rfl

/-- Settles O13: a step that leaves the latch set is the fault entry, since a command that ran left it clear. -/
theorem faultEntryIsAllThatHappens : Obligations.FaultEntryIsAllThatHappens := by
  intro s t h ht
  obtain ⟨hf, w, hw, hstep⟩ := stepOn_of_step h
  refine ⟨?_, step_of_faulted ht, rfl⟩
  cases hstep with
  | fault cause => exact ⟨w, cause, hw, rfl⟩
  | ran i hc => exact absurd (ht.symm.trans ((effect_sameControl hc).faulted.trans hf)) nofun

/-! ### The order of the faults (R240) -/

theorem inRange_eq_false_iff (c : Config) (x y : Nat) : inRange c x y = false ↔ c.W ≤ x ∨ 64 ≤ y := by
  rw [← Bool.not_eq_true, inRange_iff]
  omega

/-- The fault of a legal word's command, told from the word: at most one of the three applies. -/
theorem faultOf_operandsOf (o : Op) (w : Word) (ps : List Word) (s : State) :
    faultOf (operandsOf o w ps) s =
      if (0x11 ≤ o.code.toNat ∧ o.code.toNat ≤ 0x14) ∧ s.initDone = false then some .notInitialized
      else if (o.code.toNat = 2 ∨ o.code.toNat = 3) ∧ (s.cfg.W ≤ (fieldXA w).toNat ∨ 64 ≤ (fieldYA w).toNat) then
        some .pixelRange
      else if o.code.toNat = 4 ∧ (s.cfg.W ≤ (fieldXA w).toNat ∨ 64 ≤ (fieldYA w).toNat ∨
          s.cfg.W ≤ (fieldXB w).toNat ∨ 64 ≤ (fieldYB w).toNat) then some .lineRange
      else none := by
  cases o with
  | setPixel | getPixel =>
    cases hr : inRange s.cfg (fieldXA w).toNat (fieldYA w).toNat <;>
      simp [operandsOf, faultOf, Op.code, ← inRange_eq_false_iff, hr]
  | drawLine =>
    cases ha : inRange s.cfg (fieldXA w).toNat (fieldYA w).toNat <;>
      cases hb : inRange s.cfg (fieldXB w).toNat (fieldYB w).toNat <;>
      simp [operandsOf, faultOf, Op.code, ← inRange_eq_false_iff, ha, hb]
  | invert | powerOff | powerOn | flush => cases hi : s.initDone <;> simp [operandsOf, faultOf, Op.code, hi]
  | _ => simp [operandsOf, faultOf, Op.code]

section

variable {s : State} {w : Word} {o : Op} (hf : s.faulted = false) (hport : s.port[s.csp]? = some w)
  (hw : checkWord w = .ok o)

include hf hport hw

/-- A command that takes a fault of its own has one word, so no payload is waited for. -/
theorem step_of_ownFault {cause : FaultCause} (h : ∀ ps, faultOf (operandsOf o w ps) s = some cause) :
    step s = .next (raiseFault cause w s) := by
  have hone : commandLength w = 1 := by
    rw [payloadWords_commandLength hw]
    cases o with
    | writeString | writeBigString => exact nomatch h []
    | _ => rfl
  obtain ⟨hlt, -⟩ := List.getElem?_eq_some_iff.mp hport
  rw [step_of_whole hf hport hw (hone ▸ hlt), nextState_of_fault (h _), firstWord_operandsOf hw]

/-- A legal word whose command takes no fault of its own leaves none latched. -/
theorem not_faulted_of_noOwnFault {t : State} (h : ∀ ps, faultOf (operandsOf o w ps) s = none)
    (ht : step s = .next t) : t.faulted = false := by
  rcases Nat.lt_or_ge s.port.length (s.csp + commandLength w) with hshort | hwhole
  · exact nomatch (step_of_cutShort hf hport hw hshort).symm.trans ht
  · rw [step_of_whole hf hport hw hwhole, nextState_of_noFault (h _)] at ht
    obtain rfl := Host.Outcome.next.inj ht
    exact (effect_sameControl (h _)).faulted.trans hf

end

/-- Settles O14: the two verdicts on the word, then the one fault of a legal word's command. -/
theorem faultPriorityOrder : Obligations.FaultPriorityOrder := by
  intro s w hf hport op xa ya xb yb takes
  have hop : (fieldOP w).toNat = op := fieldOP_toNat w
  split
  · next hreserved =>
    have hnone : opOf (fieldOP w) = none := (opOf_none _).mpr (hop ▸ hreserved)
    exact step_of_checkWord_error hf hport (checkWord_of_reserved hnone)
  next hlegal =>
  obtain ⟨o, ho⟩ := Option.ne_none_iff_exists'.mp fun h => (opOf_none (fieldOP w)).mp h (hop ▸ not_not.mp hlegal)
  have hcode : fieldOP w = o.code := ((opOf_iff _ _).mp ho).symm
  have hany : (opOf (BitVec.ofNat 8 op)).any (fun o => decide (w &&& o.mustBeZero ≠ 0)) = true ↔
      w &&& o.mustBeZero ≠ 0 := by
    rw [← hop, BitVec.ofNat_toNat, BitVec.setWidth_eq, ho, Option.any_some, decide_eq_true_eq]
  split
  · next hbits => exact step_of_checkWord_error hf hport (checkWord_of_mustBeZero hcode (hany.mp hbits))
  next hzero =>
  have hw : checkWord w = .ok o := (checkWord_ok w o).mpr ⟨hcode, not_not.mp (mt hany.mpr hzero)⟩
  have hfault := fun ps => faultOf_operandsOf o w ps s
  rw [← hcode, hop] at hfault
  split_ifs with h5 h3 h4
  · exact step_of_ownFault hf hport hw fun ps => (hfault ps).trans (if_pos h5)
  · exact step_of_ownFault hf hport hw fun ps => (hfault ps).trans ((if_neg h5).trans (if_pos h3))
  · exact step_of_ownFault hf hport hw fun ps =>
      (hfault ps).trans ((if_neg h5).trans ((if_neg h3).trans (if_pos h4)))
  · exact fun t => not_faulted_of_noOwnFault hf hport hw fun ps =>
      (hfault ps).trans ((if_neg h5).trans ((if_neg h3).trans (if_neg h4)))

end Sys2Proof.Machine

/-! ## Reset (70_reset_and_hazards.md R260) -/

namespace Sys2Proof.Machine

/-- Every field of the status port is clear at the launch, whatever the configuration. -/
@[simp] theorem readStatus_launch (c : Config) : readStatus (State.launch c) = ⟨0, 0, 0⟩ := by
  have hstatus : statusWord (State.launch c) = 0 := by simp [statusWord, State.launch]
  rw [readStatus, hstatus]
  rfl

/-- Settles O17: `resetMachine` gives each field its value, and `State.reset` is a launch, whose status port is clear
(`readStatus_launch`). -/
theorem resetLeavesTheseValues : Obligations.ResetLeavesTheseValues :=
  ⟨fun _ => rfl, rfl, rfl, readStatus_launch Config.onReset, rfl⟩

/-- Settles O18: `inv_launch`, of which `State.reset` is the case `Config.onReset`. -/
theorem invariantHoldsAtLaunch : Obligations.InvariantHoldsAtLaunch :=
  ⟨inv_launch, inv_launch Config.onReset⟩

end Sys2Proof.Machine
